-- ==== Sys2Proof/Word.lean ====
section
/-! DEFINITION. The machine's word: one byte (00_scope.md R5 XLEN, R6). -/

namespace Sys2Proof

/-- A register value, a memory cell, an opcode or an operand: 8 bits, unsigned (00_scope.md R6). -/
abbrev Byte := BitVec 8

end Sys2Proof
end

