-- ==== Sys2Proof/Config.lean ====
section
/-! DEFINITION. The parameters of the machine and the value this hardware takes (00_scope.md R5).
The parameter OPCODE(m) is the table of Machine/OpcodeTable.lean. -/

namespace Sys2Proof.Config

/-- MEMSIZE: the number of memory cells (00_scope.md R5, 20_memory.md R30). -/
def memSize : Nat := 256

/-- RESET_PC (00_scope.md R5, 70_reset_and_hazards.md R171). -/
def resetPc : Nat := 0

/-- LOAD_BASE: the address of the first loaded byte (00_scope.md R5, 70_reset_and_hazards.md R172). -/
def loadBase : Nat := 0

/-- SP_RESET: the value of R7 after reset.
DESIGN CHOICE, unsafe (log 1): the spec leaves it an open byte parameter (92_eei_decisions.md D2) and
recommends 0xF4. `State.resetWith` takes it as an argument. -/
def spReset : Byte := 0xF4#8

end Sys2Proof.Config
end

