-- ==== Sys2Proof/Machine/State.lean ====
section
/-! DEFINITION. The whole state of the machine as plain data, and its reset value
(10_state.md R10 to R29; 70_reset_and_hazards.md R171). -/

namespace Sys2Proof.Machine

/-- The flags register: the three-way result of the last comparison, or `none` before the first
(10_state.md R17; the value `none` is the spec's decision D4, log 3). -/
inductive Flags where
  | none
  | less
  | greater
  | equal
  deriving DecidableEq, Repr

/-- The fatal fault kinds, with the value each records (60_exceptions.md R140 to R143; log 16). -/
inductive FaultKind where
  /-- A memory access outside capacity, with the address (R141). -/
  | outOfBounds (addr : Nat)
  /-- A register access with an index outside 0 to 7, with the index (R142). -/
  | invalidRegister (index : Byte)
  /-- The ALU asked for an operation it does not have (R143); no instruction reaches it. -/
  | unsupportedOperation
  deriving DecidableEq, Repr

/-- The run state (10_state.md R21, R22). -/
inductive RunState where
  | running
  | halted
  | faulted (k : FaultKind)
  deriving DecidableEq, Repr

/-- The event PRN appends to `out` (10_state.md R24). -/
structure Printed where
  value : Byte
  deriving DecidableEq, Repr

/-- The event an unknown opcode appends to `diag`: the address of the byte and the byte
(10_state.md R25). -/
structure UnknownOpcode where
  addr : Nat
  opcode : Byte
  deriving DecidableEq, Repr

/-- Memory as the list of its cells that are not zero, addresses strictly rising; an unlisted cell
reads as 0x00, its value after reset (20_memory.md R30; log 8). -/
abbrev Memory := List Host.Cell

/-- The state of the machine (10_state.md, opening: "Nothing else is state"). -/
structure State where
  /-- R0 to R7; R7 is the stack pointer `sp` (10_state.md R10, R11). -/
  regs : Vector Byte 8
  /-- The program counter, an unsigned integer that does not wrap (10_state.md R14, R15; log 5). -/
  pc : Nat
  /-- The flags register (10_state.md R17). -/
  fl : Flags
  /-- The run state (10_state.md R21, R22). -/
  run : RunState
  /-- The memory (10_state.md R23). -/
  mem : Memory
  /-- The values printed so far, oldest first (10_state.md R24). -/
  out : List Printed
  /-- The reports made so far, oldest first (10_state.md R25). -/
  diag : List UnknownOpcode
  deriving DecidableEq, Repr

/-- Why there is no step. Raised by `step` alone, never by the meaning of an instruction: a fatal fault
of the SPEC is a next state whose run state is `faulted` (60_exceptions.md R147; log 6). -/
inductive Fault where
  /-- `step` in the run state Halted: "no further cycles execute" (40_interpreter_loop.md R71).
  Safe: the spec gives no successor. -/
  | halted
  /-- `step` in the run state Faulted(K), which has no successor (40_interpreter_loop.md R71).
  Safe: the spec gives no successor. -/
  | faulted (k : FaultKind)
  deriving DecidableEq, Repr

/-- Why the model gives no meaning. -/
inductive Refusal where
  /-- Raised by an arm of `exec` for an instruction without a meaning; no arm raises it. Safe. -/
  | notModelled (mnemonic : String)
  deriving DecidableEq, Repr

/-- The state right after reset, for each value of the open parameter SP_RESET
(70_reset_and_hazards.md R171). R0 to R6 and `fl` are the spec's decisions D3 and D4 (log 2, log 3). -/
def State.resetWith (spReset : Byte) : State where
  regs := #v[0x00#8, 0x00#8, 0x00#8, 0x00#8, 0x00#8, 0x00#8, 0x00#8, spReset]
  pc := Config.resetPc
  fl := .none
  run := .running
  mem := []
  out := []
  diag := []

/-- The state right after reset, with the SP_RESET of Config (log 1). -/
def State.reset : State := State.resetWith Config.spReset

end Sys2Proof.Machine
end

