-- ==== Sys2Proof/Machine/Flags.lean ====
section
/-! DEFINITION. The flag computation and the flag tests (42_alu.md R93; 43_jumps.md R100, R101). -/

namespace Sys2Proof.Machine

/-- The result of comparing two bytes as unsigned numbers (42_alu.md R93, R97). -/
def compareFlags (va vb : Byte) : Flags :=
  if va.toNat < vb.toNat then .less
  else if vb.toNat < va.toNat then .greater
  else .equal

/-- Whether JEQ is taken: `fl = Equal` (43_jumps.md R100). -/
def Flags.isEqual (f : Flags) : Bool := f == .equal

/-- Whether JNE is taken: `fl != Equal`, `None` included (43_jumps.md R101). -/
def Flags.isNotEqual (f : Flags) : Bool := f != .equal

end Sys2Proof.Machine
end

