-- ==== Sys2Proof/Machine/Ops.lean ====
section
/-! DEFINITION. The named operations over the state: field updates, registers, memory, the stack
pointer, the event streams, and taking a fault. -/

namespace Sys2Proof.Machine

/-! ### The plain updates of a state -/

/-- Register Ri (10_state.md R10). -/
def State.reg (i : Fin 8) (s : State) : Byte := s.regs[i.val]

/-- Ri becomes v; no register is hard-wired (10_state.md R10). -/
def State.withReg (i : Fin 8) (v : Byte) (s : State) : State := { s with regs := s.regs.set i.val v }

/-- The program counter becomes target (00_scope.md R7). -/
def State.withPc (target : Nat) (s : State) : State := { s with pc := target }

/-- The flags register becomes f (00_scope.md R7). -/
def State.withFl (f : Flags) (s : State) : State := { s with fl := f }

/-- The run state becomes r (00_scope.md R7). -/
def State.withRun (r : RunState) (s : State) : State := { s with run := r }

/-- The memory becomes m. -/
def State.withMem (m : Memory) (s : State) : State := { s with mem := m }

/-- Append `Printed(v)` to the output stream (00_scope.md R7 `emit`, 10_state.md R24; log 7). -/
def State.emit (v : Byte) (s : State) : State := { s with out := s.out ++ [⟨v⟩] }

/-- Append `UnknownOpcode(a, b)` to the diagnostic stream (00_scope.md R7 `report`, 10_state.md R25; log 7). -/
def State.report (a : Nat) (b : Byte) (s : State) : State := { s with diag := s.diag ++ [⟨a, b⟩] }

/-- The default advance of the program counter (40_interpreter_loop.md R74). -/
def State.advance (n : Nat) (s : State) : State := s.withPc (s.pc + n)

/-- A byte enters the program counter unchanged (00_scope.md R7 `zext`; 43_jumps.md R103). -/
def State.jumpTo (target : Byte) (s : State) : State := s.withPc target.toNat

/-! ### The stack pointer -/

/-- `sp` is R7 (10_state.md R11). -/
def spIndex : Fin 8 := 7

/-- The stack pointer (00_scope.md R7). -/
def State.sp (s : State) : Byte := s.reg spIndex

/-- `sp <- (sp - 1) mod 256` (20_memory.md R44, 44_stack.md R110). -/
def State.decSp (s : State) : State := s.withReg spIndex (s.sp - 1#8)

/-- `sp <- (sp + 1) mod 256` (20_memory.md R44, 44_stack.md R111). -/
def State.incSp (s : State) : State := s.withReg spIndex (s.sp + 1#8)

/-! ### Memory as a list of cells -/

/-- The value of an unlisted cell: the reset contents (20_memory.md R30: "zero-initialized"). -/
def Memory.unlisted : Byte := 0x00#8

/-- The byte in a cell. -/
def Memory.read : Memory → Nat → Byte
  | [], _ => Memory.unlisted
  | (b, w) :: m, a => if b = a then w else Memory.read m a

/-- The memory without any entry for a cell. -/
def Memory.erase : Memory → Nat → Memory
  | [], _ => []
  | (b, w) :: m, a => if b = a then Memory.erase m a else (b, w) :: Memory.erase m a

/-- An entry put in before the first entry of a higher address. -/
def Memory.insert : Memory → Nat → Byte → Memory
  | [], a, v => [(a, v)]
  | (b, w) :: m, a, v => if a < b then (a, v) :: (b, w) :: m else (b, w) :: Memory.insert m a v

/-- The memory with cell a holding v, in canonical form (log 8). -/
def Memory.write (m : Memory) (a : Nat) (v : Byte) : Memory :=
  if v = Memory.unlisted then Memory.erase m a else Memory.insert (Memory.erase m a) a v

/-- Every address of a list of cells is above a bound, and they rise strictly. -/
def Memory.risesFrom : Nat → Memory → Bool
  | _, [] => true
  | lo, (b, _) :: m => decide (lo ≤ b) && Memory.risesFrom (b + 1) m

/-- The canonical form: addresses strictly rising, all inside the memory, no entry equal to what an
unlisted cell reads as (log 8). -/
def Memory.wf (m : Memory) : Bool :=
  Memory.risesFrom 0 m && m.all fun c => decide (c.1 < Config.memSize) && decide (c.2 ≠ Memory.unlisted)

/-- The byte in cell a of the machine's memory, without the bounds check. -/
def State.cell (a : Nat) (s : State) : Byte := Memory.read s.mem a

/-- `MemRead(addr, 1)`: the read contract (20_memory.md R31, 00_scope.md R7). -/
def memRead (addr : Nat) (s : State) : Except FaultKind Byte :=
  if addr < Config.memSize then .ok (s.cell addr) else .error (.outOfBounds addr)

/-- `MemWrite(addr, 1, v)`: the write contract (20_memory.md R32, 00_scope.md R7). -/
def memWrite (addr : Nat) (v : Byte) (s : State) : Except FaultKind State :=
  if addr < Config.memSize then .ok (s.withMem (Memory.write s.mem addr v)) else .error (.outOfBounds addr)

/-- The byte `sp` points at (44_stack.md R111, R112). -/
def loadTop (s : State) : Except FaultKind Byte := memRead s.sp.toNat s

/-- Write the cell `sp` points at (44_stack.md R110, R112). -/
def storeTop (v : Byte) (s : State) : Except FaultKind State := memWrite s.sp.toNat v s

/-- The address PUSH and CALL store to: the decremented stack pointer (44_stack.md R110, "Effective address"). -/
def State.pushAddr (s : State) : Nat := s.decSp.sp.toNat

/-! ### Taking a fault -/

/-- Fault entry: the run state becomes `Faulted(K)` and nothing else changes; no state is saved and
control goes nowhere (60_exceptions.md R147, R148; log 6, log 10). There is no return (R149). -/
def raiseFault (k : FaultKind) (s : State) : State := s.withRun (.faulted k)

/-- How an instruction ends: with the state its rule leaves or, on a raise, with every write of the
step discarded and the fault taken in the state before it (40_interpreter_loop.md R77). -/
def settle (s : State) (r : Except FaultKind State) : Host.Outcome State Fault Refusal :=
  match r with
  | .ok t => .next t
  | .error k => .next (raiseFault k s)

/-! ### What the host reads at the end of a run (60_exceptions.md R145, R157) -/

/-- The number of a fault kind (60_exceptions.md R145; log 16). -/
def FaultKind.code : FaultKind → Nat
  | .outOfBounds _ => 1
  | .invalidRegister _ => 2
  | .unsupportedOperation => 3

/-- The number of the unknown-opcode report (60_exceptions.md R145; log 16). -/
def UnknownOpcode.code (_ : UnknownOpcode) : Nat := 4

/-- The number of the fault a run state holds; 0 means no fault (60_exceptions.md R145; log 16). -/
def RunState.faultCode : RunState → Nat
  | .running => 0
  | .halted => 0
  | .faulted k => k.code

/-- The value a fault records: the offending address or register index (60_exceptions.md R141, R142; log 16). -/
def FaultKind.recorded : FaultKind → Option Nat
  | .outOfBounds addr => some addr
  | .invalidRegister index => some index.toNat
  | .unsupportedOperation => none

end Sys2Proof.Machine
end

