-- ==== Sys2Proof/Machine/Operands.lean ====
section
/-! DEFINITION. The operand forms: a register by its operand byte (10_state.md R12, 30_encoding.md R55).
The one other form, the immediate of LDI, is the operand byte as it stands (30_encoding.md R56). -/

namespace Sys2Proof.Machine

/-- The register an operand byte selects. Values 8 to 255 are invalid and are not masked
(30_encoding.md R55, 10_state.md R12). -/
def regIndex (index : Byte) : Except FaultKind (Fin 8) :=
  if h : index.toNat < 8 then .ok ⟨index.toNat, h⟩ else .error (.invalidRegister index)

/-- The operand byte that selects Ri. -/
def regByte (i : Fin 8) : Byte := BitVec.ofNat 8 i.val

/-- `x[index]`: the register read contract (10_state.md R12, 00_scope.md R7). -/
def readReg (index : Byte) (s : State) : Except FaultKind Byte := do
  let i ← regIndex index
  pure (s.reg i)

/-- `x[index] <- v`: the register write contract (10_state.md R12, 00_scope.md R7). -/
def writeReg (index v : Byte) (s : State) : Except FaultKind State := do
  let i ← regIndex index
  pure (s.withReg i v)

end Sys2Proof.Machine
end

