-- ==== Sys2Proof/Machine/Alu.lean ====
section
/-! DEFINITION. The ALU block and the instructions that use it: ADD, MUL, CMP (42_alu.md). -/

namespace Sys2Proof.Machine

/-- The operation selector of the ALU (42_alu.md R90; log 15). -/
inductive AluOp where
  | add
  | multiply
  | compare
  /-- A selector outside Add, Multiply, Compare (42_alu.md R94). No instruction passes it. -/
  | other (code : Nat)
  deriving DecidableEq, Repr

/-- The ALU contract `apply(op, dest_index, src_index)`: both registers are read, dest first, before
anything is written (42_alu.md R90 to R94). -/
def aluApply (op : AluOp) (dest src : Byte) (s : State) : Except FaultKind State := do
  let vd ← readReg dest s
  let vs ← readReg src s
  match op with
  | .add => writeReg dest (vd + vs) s
  | .multiply => writeReg dest (vd * vs) s
  | .compare => pure (s.withFl (compareFlags vd vs))
  | .other _ => throw .unsupportedOperation

/-- ADD a, b (42_alu.md R95). -/
def execAdd (a b : Byte) (s : State) : Host.Outcome State Fault Refusal :=
  settle s do
    let t ← aluApply .add a b s
    pure (t.advance 3)

/-- MUL a, b (42_alu.md R96). -/
def execMul (a b : Byte) (s : State) : Host.Outcome State Fault Refusal :=
  settle s do
    let t ← aluApply .multiply a b s
    pure (t.advance 3)

/-- CMP a, b (42_alu.md R97). -/
def execCmp (a b : Byte) (s : State) : Host.Outcome State Fault Refusal :=
  settle s do
    let t ← aluApply .compare a b s
    pure (t.advance 3)

end Sys2Proof.Machine
end

