-- ==== Sys2Proof/Machine/CallReturn.lean ====
section
/-! DEFINITION. Subroutine linkage: CALL, RET (45_call_return.md). -/

namespace Sys2Proof.Machine

/-- The return address of a CALL as the one byte that is pushed; there is none above 255
(45_call_return.md R120; log 11). -/
def returnAddress (s : State) : Except FaultKind Byte :=
  if s.pc + 2 < Config.memSize then .ok (BitVec.ofNat 8 (s.pc + 2)) else .error (.outOfBounds (s.pc + 2))

/-- CALL a: the index, then the return address are checked before `sp` moves, and `x[a]` is read after
the push (45_call_return.md R120; log 10, log 11, log 12). -/
def execCall (a : Byte) (s : State) : Host.Outcome State Fault Refusal :=
  settle s do
    let i ← regIndex a
    let back ← returnAddress s
    let t ← storeTop back s.decSp
    pure (t.jumpTo (t.reg i))

/-- RET (45_call_return.md R121). -/
def execRet (s : State) : Host.Outcome State Fault Refusal :=
  settle s do
    let back ← loadTop s
    pure (s.incSp.jumpTo back)

end Sys2Proof.Machine
end

