-- ==== Sys2Proof/Machine/Jumps.lean ====
section
/-! DEFINITION. The jumps: JEQ, JNE, JMP (43_jumps.md). -/

namespace Sys2Proof.Machine

/-- `pc <- x[a]`: the target is the register's value, zero-extended (43_jumps.md R103). -/
def jumpReg (a : Byte) (s : State) : Except FaultKind State := do
  let target ← readReg a s
  pure (s.jumpTo target)

/-- A conditional jump: not taken, the register is not accessed (43_jumps.md R100, R101; log 9). -/
def jumpRegIf (taken : Bool) (a : Byte) (s : State) : Except FaultKind State :=
  if taken then jumpReg a s else pure (s.advance 2)

/-- JEQ a (43_jumps.md R100). -/
def execJeq (a : Byte) (s : State) : Host.Outcome State Fault Refusal :=
  settle s (jumpRegIf s.fl.isEqual a s)

/-- JNE a (43_jumps.md R101). -/
def execJne (a : Byte) (s : State) : Host.Outcome State Fault Refusal :=
  settle s (jumpRegIf s.fl.isNotEqual a s)

/-- JMP a (43_jumps.md R102). -/
def execJmp (a : Byte) (s : State) : Host.Outcome State Fault Refusal :=
  settle s (jumpReg a s)

end Sys2Proof.Machine
end

