-- ==== Sys2Proof/Machine/LoadImmediate.lean ====
section
/-! DEFINITION. Data movement: LDI (41_load_immediate.md). -/

namespace Sys2Proof.Machine

/-- LDI a, imm (41_load_immediate.md R85). -/
def execLdi (a imm : Byte) (s : State) : Host.Outcome State Fault Refusal :=
  settle s do
    let t ← writeReg a imm s
    pure (t.advance 3)

end Sys2Proof.Machine
end

