-- ==== Sys2Proof/Machine/PrintHalt.lean ====
section
/-! DEFINITION. Output and halt: PRN, HLT (46_print_halt.md). -/

namespace Sys2Proof.Machine

/-- PRN a (46_print_halt.md R130). -/
def execPrn (a : Byte) (s : State) : Host.Outcome State Fault Refusal :=
  settle s do
    let v ← readReg a s
    pure ((s.emit v).advance 2)

/-- HLT: the default advance applies (46_print_halt.md R131; log 13). -/
def execHlt (s : State) : Host.Outcome State Fault Refusal :=
  settle s (pure ((s.withRun .halted).advance 1))

end Sys2Proof.Machine
end

