-- ==== Sys2Proof/Machine/Stack.lean ====
section
/-! DEFINITION. The stack instructions: PUSH, POP (44_stack.md). -/

namespace Sys2Proof.Machine

/-- PUSH a: the index is checked first, `sp` moves, and `x[a]` is read after the decrement
(44_stack.md R110; log 10, log 12). -/
def execPush (a : Byte) (s : State) : Host.Outcome State Fault Refusal :=
  settle s do
    let i ← regIndex a
    let t := s.decSp
    let u ← storeTop (t.reg i) t
    pure (u.advance 2)

/-- POP a: the index is checked first, the read is at the old `sp`, and the increment sees what was
popped when a is 7 (44_stack.md R111; log 10, log 12). -/
def execPop (a : Byte) (s : State) : Host.Outcome State Fault Refusal :=
  settle s do
    let i ← regIndex a
    let v ← loadTop s
    let t := (s.withReg i v).incSp
    pure (t.advance 2)

end Sys2Proof.Machine
end

