-- ==== Sys2Proof/Machine/Unknown.lean ====
section
/-! DEFINITION. The unknown opcode, a reported one-byte no-op (40_interpreter_loop.md R75). -/

namespace Sys2Proof.Machine

/-- An opcode byte outside the table (40_interpreter_loop.md R75, 60_exceptions.md R144; log 7). -/
def execUnknown (op : Byte) (s : State) : Host.Outcome State Fault Refusal :=
  settle s (pure ((s.report s.pc op).advance 1))

end Sys2Proof.Machine
end

