-- ==== Sys2Proof/Syntax.lean ====
section
/-! DEFINITION. Instructions as syntax: one constructor per row of spec/opcode_table.json
(30_encoding.md R50 to R57), the mnemonics and the four formats. -/

namespace Sys2Proof

/-- The four instruction formats (30_encoding.md R51 to R54). -/
inductive Format where
  /-- R51: the opcode byte alone. -/
  | op0
  /-- R52: opcode, register index. -/
  | op1r
  /-- R53: opcode, register index a, register index b. -/
  | op2rr
  /-- R54: opcode, register index, immediate. -/
  | op2ri
  deriving DecidableEq, Repr

/-- The rows of the opcode table, by mnemonic (00_scope.md R9), with the default row (40_interpreter_loop.md R75). -/
inductive Mnemonic where
  | ldi | add | mul | cmp | jeq | jne | jmp | push | pop | call | ret | prn | hlt | unknown
  deriving DecidableEq, Repr

/-- A decoded instruction (10_state.md R26: transient, decoded fresh each cycle).
A register operand is the whole operand byte and is not masked (30_encoding.md R55). -/
inductive Instr where
  /-- LDI a, imm (41_load_immediate.md R85). -/
  | ldi (a imm : Byte)
  /-- ADD a, b (42_alu.md R95). -/
  | add (a b : Byte)
  /-- MUL a, b (42_alu.md R96). -/
  | mul (a b : Byte)
  /-- CMP a, b (42_alu.md R97). -/
  | cmp (a b : Byte)
  /-- JEQ a (43_jumps.md R100). -/
  | jeq (a : Byte)
  /-- JNE a (43_jumps.md R101). -/
  | jne (a : Byte)
  /-- JMP a (43_jumps.md R102). -/
  | jmp (a : Byte)
  /-- PUSH a (44_stack.md R110). -/
  | push (a : Byte)
  /-- POP a (44_stack.md R111). -/
  | pop (a : Byte)
  /-- CALL a (45_call_return.md R120). -/
  | call (a : Byte)
  /-- RET (45_call_return.md R121). -/
  | ret
  /-- PRN a (46_print_halt.md R130). -/
  | prn (a : Byte)
  /-- HLT (46_print_halt.md R131). -/
  | hlt
  /-- An opcode byte outside the table, with that byte (40_interpreter_loop.md R75). -/
  | unknown (op : Byte)
  deriving DecidableEq, Repr

/-- The row of the opcode table an instruction belongs to. -/
def Instr.mnemonic : Instr → Mnemonic
  | .ldi _ _ => .ldi
  | .add _ _ => .add
  | .mul _ _ => .mul
  | .cmp _ _ => .cmp
  | .jeq _ => .jeq
  | .jne _ => .jne
  | .jmp _ => .jmp
  | .push _ => .push
  | .pop _ => .pop
  | .call _ => .call
  | .ret => .ret
  | .prn _ => .prn
  | .hlt => .hlt
  | .unknown _ => .unknown

end Sys2Proof
end

