-- ==== Sys2Proof/Machine/OpcodeTable.lean ====
section
/-! DEFINITION. The fixed opcode table: byte value to (format, handler) (30_encoding.md R57, R58, R59). -/

namespace Sys2Proof

/-- The opcode map (30_encoding.md R57), in the order of spec/opcode_table.json.
DESIGN CHOICE (log 4): the spec's own choice of byte values (92_eei_decisions.md D5). -/
def opcodeTable : List (Byte × Mnemonic) :=
  [ (0x82#8, .ldi), (0xA0#8, .add), (0xA2#8, .mul), (0xA7#8, .cmp),
    (0x55#8, .jeq), (0x56#8, .jne), (0x54#8, .jmp),
    (0x45#8, .push), (0x46#8, .pop), (0x50#8, .call), (0x11#8, .ret),
    (0x47#8, .prn), (0x01#8, .hlt) ]

/-- Decoding is a lookup of the whole opcode byte; any other byte is an unknown opcode (30_encoding.md R58, R59). -/
def lookup (op : Byte) : Mnemonic := (opcodeTable.lookup op).getD .unknown

/-- The format of each row of the opcode table (30_encoding.md R51 to R54, R57). -/
def Mnemonic.format : Mnemonic → Format
  | .ldi => .op2ri
  | .add | .mul | .cmp => .op2rr
  | .jeq | .jne | .jmp | .push | .pop | .call | .prn => .op1r
  | .ret | .hlt | .unknown => .op0

/-- The number of operand bytes of a format (30_encoding.md R51 to R54). -/
def Format.operandCount : Format → Nat
  | .op0 => 0
  | .op1r => 1
  | .op2rr | .op2ri => 2

/-- The operand count the opcode table gives a row; 0 for an unknown opcode (30_encoding.md R58). -/
def Mnemonic.operandCount (m : Mnemonic) : Nat := m.format.operandCount

/-- The length of an instruction in bytes: its operand count plus one (30_encoding.md R58). -/
def Instr.length (i : Instr) : Nat := 1 + i.mnemonic.operandCount

end Sys2Proof
end

