-- ==== Sys2Proof/WellFormed.lean ====
section
/-! DEFINITION. Which terms of `Instr` are instructions of the machine. -/

namespace Sys2Proof

/-- A term is well formed when the byte an `unknown` carries is really outside the opcode table
(30_encoding.md R59). Register indices 8 to 255 are well formed: they decode, and fault only when the
register is accessed (30_encoding.md R55, R60). -/
def Instr.wf : Instr → Bool
  | .unknown op => lookup op == .unknown
  | .ldi _ _ | .add _ _ | .mul _ _ | .cmp _ _ => true
  | .jeq _ | .jne _ | .jmp _ | .push _ | .pop _ | .call _ | .prn _ => true
  | .ret | .hlt => true

end Sys2Proof
end

