-- ==== Sys2Proof/Decode.lean ====
section
/-! DEFINITION. The decoder, total on any bytes, and after it the encoder (30_encoding.md R50 to R61). -/

namespace Sys2Proof

/-- Why a list of bytes holds no whole instruction. Every byte value decodes (30_encoding.md R59), so
the only reason is that the bytes run out. -/
inductive DecodeError where
  /-- There is no opcode byte. -/
  | missingOpcode
  /-- The opcode takes an operand and there is no byte after it. -/
  | missingFirstOperand
  /-- The opcode takes two operands and there is only one byte after it. -/
  | missingSecondOperand
  deriving DecidableEq, Repr

/-- The instruction a row of the table, an opcode byte and the operand bytes stand for
(30_encoding.md R51 to R54). A row ignores the operand bytes it does not have. -/
def assemble (m : Mnemonic) (op opA opB : Byte) : Instr :=
  match m with
  | .ldi => .ldi opA opB
  | .add => .add opA opB
  | .mul => .mul opA opB
  | .cmp => .cmp opA opB
  | .jeq => .jeq opA
  | .jne => .jne opA
  | .jmp => .jmp opA
  | .push => .push opA
  | .pop => .pop opA
  | .call => .call opA
  | .ret => .ret
  | .prn => .prn opA
  | .hlt => .hlt
  | .unknown => .unknown op

/-- The one decoder, over any way of reading the byte at an offset from the opcode byte: the opcode
byte is read, looked up, and then all its operand bytes and no others are read, in ascending order
(40_interpreter_loop.md R72, R73, R77; 92_eei_decisions.md D8, log 9). A read that fails ends it. -/
def decodeWith {ε : Type} (read : Nat → Except ε Byte) : Except ε Instr := do
  let op ← read 0
  let m := lookup op
  let opA ← if 1 ≤ m.operandCount then read 1 else pure 0#8
  let opB ← if m.operandCount = 2 then read 2 else pure 0#8
  pure (assemble m op opA opB)

/-- The name of the refusal when the byte at an offset is missing. -/
def missingByte : Nat → DecodeError
  | 0 => .missingOpcode
  | 1 => .missingFirstOperand
  | _ => .missingSecondOperand

/-- The byte of a list at an offset. -/
def byteAt (bytes : List Byte) (k : Nat) : Except DecodeError Byte :=
  match bytes[k]? with
  | some b => .ok b
  | none => .error (missingByte k)

/-- Decode the instruction at the front of a list of bytes and return it with the rest of the list. -/
def decode (bytes : List Byte) : Except DecodeError (Instr × List Byte) := do
  let i ← decodeWith (byteAt bytes)
  pure (i, bytes.drop i.length)

/-- The bytes of an instruction, the opcode byte first (30_encoding.md R50 to R54, R57). -/
def encode : Instr → List Byte
  | .ldi a imm => [0x82#8, a, imm]
  | .add a b => [0xA0#8, a, b]
  | .mul a b => [0xA2#8, a, b]
  | .cmp a b => [0xA7#8, a, b]
  | .jeq a => [0x55#8, a]
  | .jne a => [0x56#8, a]
  | .jmp a => [0x54#8, a]
  | .push a => [0x45#8, a]
  | .pop a => [0x46#8, a]
  | .call a => [0x50#8, a]
  | .ret => [0x11#8]
  | .prn a => [0x47#8, a]
  | .hlt => [0x01#8]
  | .unknown op => [op]

/-- The three bytes of an instruction numbered as spec/opcode_table.json numbers its bits: the first
byte is bits 7..0, the next bits 15..8, the third bits 23..16; the bits above nbits are 0. -/
def tableWordBytes (nbits w : Nat) : List Byte :=
  let v := w % 2 ^ nbits
  [BitVec.ofNat 8 v, BitVec.ofNat 8 (v / 256), BitVec.ofNat 8 (v / 65536)]

/-- The instruction the decoder reads from an instruction whose bits are w. -/
def decodeTableWord (nbits w : Nat) : Option Instr :=
  match decode (tableWordBytes nbits w) with
  | .ok (i, _) => some i
  | .error _ => none

end Sys2Proof
end

