-- ==== Sys2Proof/Machine/Fetch.lean ====
section
/-! DEFINITION. Fetching the instruction at the program counter, and storing one there
(40_interpreter_loop.md R72, R73). -/

namespace Sys2Proof.Machine

/-- Fetch and decode the instruction at the program counter through the memory read contract: the
opcode byte, then all its operand bytes in ascending order and no others; a byte at address 256 or
more raises OutOfBounds (40_interpreter_loop.md R72, R73; log 9). -/
def fetch (s : State) : Except FaultKind Instr := decodeWith fun k => memRead (s.pc + k) s

/-- Bytes stored at ascending addresses from a, as far as the memory reaches. -/
def storeBytes : List Byte → Nat → State → State
  | [], _, s => s
  | b :: bs, a, s =>
    match memWrite a b s with
    | .ok t => storeBytes bs (a + 1) t
    | .error _ => s

/-- The state with the instruction whose bits are w, numbered as spec/opcode_table.json numbers them,
stored where the next instruction is fetched (log 14). -/
def placeTableWord (s : State) (nbits w : Nat) : State := storeBytes (tableWordBytes nbits w) s.pc s

end Sys2Proof.Machine
end

