-- ==== Sys2Proof/Machine/Step.lean ====
section
/-! DEFINITION. One step: fetch, decode, execute (40_interpreter_loop.md R70 to R78). -/

namespace Sys2Proof.Machine

/-- One cycle. It exists only in the run state Running (40_interpreter_loop.md R71); a fetch that
raises takes the fault as every instruction does (R72, R73, R77). -/
def step (s : State) : Host.Outcome State Fault Refusal :=
  match s.run with
  | .running =>
    match fetch s with
    | .ok i => exec i s
    | .error k => settle s (.error k)
  | .halted => .fault .halted
  | .faulted k => .fault (.faulted k)

/-- The state with an instruction word of spec/opcode_table.json stored at the program counter (log 14). -/
def State.withFetchWord (s : State) (nbits w : Nat) : State := placeTableWord s nbits w

end Sys2Proof.Machine
end

