-- ==== Sys2Proof/Machine/Loader.lean ====
section
/-! DEFINITION. Program load: the host's one act before the first step (70_reset_and_hazards.md R172). -/

namespace Sys2Proof.Machine

/-- `MemWrite(a + i, 1, b[i])` for each byte in order (70_reset_and_hazards.md R172). -/
def loadFrom : List Byte → Nat → State → Except FaultKind State
  | [], _, s => .ok s
  | b :: bs, a, s => do
    let t ← memWrite a b s
    loadFrom bs (a + 1) t

/-- Load a program from LOAD_BASE. A program longer than the memory raises OutOfBounds and there is no
machine to start (70_reset_and_hazards.md R172; log 14). -/
def State.load (bytes : List Byte) (s : State) : Except FaultKind State := loadFrom bytes Config.loadBase s

end Sys2Proof.Machine
end

