-- ==== Sys2Proof/Safety.lean ====
section
/-! DEFINITION. What claims say about runs: the invariant of the state, how a run ends, and the frame
relations between two states. -/

namespace Sys2Proof.Machine

/-- The invariant of the model's state. `pc` is 0 to 256: 10_state.md R29 (which the spec marks as
derived), the one range of it that the types do not carry. The memory is in canonical form: no rule of the
spec but the model's own choice of form (DESIGN CHOICE, log 8). -/
def State.Inv (s : State) : Prop := s.mem.wf = true ∧ s.pc ≤ Config.memSize

/-- The two terminal run states (40_interpreter_loop.md R71, 70_reset_and_hazards.md R175). -/
def State.ended (s : State) : Prop := s.run ≠ .running

/-- A failed run (70_reset_and_hazards.md R175). -/
def State.failed (s : State) : Prop := ∃ k, s.run = .faulted k

/-- A run that has not failed: it is still running or has halted, the only success (70_reset_and_hazards.md R175). -/
def State.safe (s : State) : Prop := ¬ s.failed

/-- Every register except those named keeps its value from s to t. -/
def sameRegsBut (changed : List (Fin 8)) (s t : State) : Prop := ∀ i, i ∉ changed → t.reg i = s.reg i

/-- Every byte of memory except the one at a named address keeps its value from s to t. -/
def sameMemBut (changed : Option Nat) (s t : State) : Prop := ∀ a, changed ≠ some a → t.cell a = s.cell a

/-- The two event streams keep their contents from s to t. -/
def sameStreams (s t : State) : Prop := t.out = s.out ∧ t.diag = s.diag

/-- The run state is kept, or a fault was taken. -/
def sameRunOrFault (s t : State) : Prop := t.run = s.run ∨ ∃ k, t.run = .faulted k

/-- The state s with only its run state changed to `Faulted(K)` (60_exceptions.md R147, R148). -/
def faultedAs (k : FaultKind) (s : State) : State := { s with run := .faulted k }

/-! ### Repeated execution -/

/-- The instruction i executed n times in a row, whatever is fetched. -/
def execTimes (i : Instr) : Nat → State → Host.Outcome State Fault Refusal
  | 0, s => .next s
  | n + 1, s =>
    match exec i s with
    | .next t => execTimes i n t
    | .fault r => .fault r
    | .refused r => .refused r

/-- n steps in a row (40_interpreter_loop.md R76). -/
def stepTimes : Nat → State → Host.Outcome State Fault Refusal
  | 0, s => .next s
  | n + 1, s =>
    match step s with
    | .next t => stepTimes n t
    | .fault r => .fault r
    | .refused r => .refused r

/-! ### Tables of the spec as relations -/

/-- The operand count the opcode table gives the byte at the program counter (40_interpreter_loop.md R73). -/
def State.operandsHere (s : State) : Nat := (lookup (s.cell s.pc)).operandCount

/-- i is the whole of these bytes, both ways, whatever follows them (30_encoding.md R51 to R54). -/
def encodedAs (i : Instr) (bytes : List Byte) : Prop :=
  encode i = bytes ∧ i.length = bytes.length ∧ ∀ rest, decode (bytes ++ rest) = .ok (i, rest)

/-- A running machine that has this opcode byte at the program counter, too near the end of the memory
for its operand bytes, faults on the operand fetch and changes nothing else (40_interpreter_loop.md R73). -/
def operandFetchFaultsFrom (opcode : Byte) (lo : Nat) : Prop :=
  ∀ s : State, s.run = .running → lo ≤ s.pc → s.pc ≤ 255 → s.cell s.pc = opcode →
    step s = .next (faultedAs (.outOfBounds 256) s)

/-- The next program counter of each instruction that does not fault: the table of 10_state.md R16.
s is the state before the instruction and t the state after it. -/
def nextPc (i : Instr) (s t : State) : Prop :=
  match i with
  | .ldi _ _ | .add _ _ | .mul _ _ | .cmp _ _ => t.pc = s.pc + 3
  | .push _ | .pop _ | .prn _ => t.pc = s.pc + 2
  | .hlt | .unknown _ => t.pc = s.pc + 1
  | .jmp a => ∃ r, a = regByte r ∧ t.pc = (s.reg r).toNat
  | .jeq a => if s.fl = .equal then ∃ r, a = regByte r ∧ t.pc = (s.reg r).toNat else t.pc = s.pc + 2
  | .jne a => if s.fl ≠ .equal then ∃ r, a = regByte r ∧ t.pc = (s.reg r).toNat else t.pc = s.pc + 2
  | .call a => ∃ r, a = regByte r ∧ t.pc = (t.reg r).toNat
  | .ret => t.pc = (s.cell s.sp.toNat).toNat

/-- The index with which an instruction raises InvalidRegister: the table of 60_exceptions.md R142. -/
def invalidRegisterOf (i : Instr) (s : State) : Option Byte :=
  match i with
  | .ldi a _ => if 7 < a.toNat then some a else none
  | .add a b | .mul a b | .cmp a b => if 7 < a.toNat then some a else if 7 < b.toNat then some b else none
  | .jmp a | .push a | .pop a | .call a | .prn a => if 7 < a.toNat then some a else none
  | .jeq a => if 7 < a.toNat ∧ s.fl = .equal then some a else none
  | .jne a => if 7 < a.toNat ∧ s.fl ≠ .equal then some a else none
  | .ret | .hlt | .unknown _ => none

/-- Where a running machine with `pc` at most 256 raises OutOfBounds: the table of 60_exceptions.md R141. -/
def outOfBoundsHere (s : State) : Prop :=
  s.pc = 256 ∨ (s.pc = 255 ∧ 1 ≤ s.operandsHere) ∨ (s.pc = 254 ∧ s.operandsHere = 2) ∨
    (s.pc = 254 ∧ ∃ a : Fin 8, fetch s = .ok (.call (regByte a)))

/-- The byte an instruction stores at `pushAddr`, if it stores one: PUSH stores the register read after
the decrement, CALL the return address (20_memory.md R33; 44_stack.md R110, 45_call_return.md R120). -/
def storedByte (i : Instr) (s : State) : Option Byte :=
  match i with
  | .push a => if h : a.toNat < 8 then some (s.decSp.reg ⟨a.toNat, h⟩) else none
  | .call a => if a.toNat < 8 ∧ s.pc ≤ 253 then some (BitVec.ofNat 8 (s.pc + 2)) else none
  | .ldi _ _ | .add _ _ | .mul _ _ | .cmp _ _ | .jeq _ | .jne _ | .jmp _ | .pop _ | .ret | .prn _ | .hlt
  | .unknown _ => none

/-- The operand bytes of the registers an instruction reads: the table of 10_state.md R13. -/
def registersRead (i : Instr) (s : State) : List Byte :=
  match i with
  | .ldi _ _ => []
  | .add a b | .mul a b | .cmp a b => [a, b]
  | .jeq a => if s.fl = .equal then [a] else []
  | .jne a => if s.fl ≠ .equal then [a] else []
  | .jmp a | .prn a => [a]
  | .push a | .call a => [regByte spIndex, a]
  | .pop _ | .ret => [regByte spIndex]
  | .hlt | .unknown _ => []

/-- The operand bytes of the registers an instruction writes: the table of 10_state.md R13. -/
def registersWritten (i : Instr) : List Byte :=
  match i with
  | .ldi a _ | .add a _ | .mul a _ => [a]
  | .cmp _ _ | .jeq _ | .jne _ | .jmp _ | .prn _ | .hlt | .unknown _ => []
  | .push _ | .call _ | .ret => [regByte spIndex]
  | .pop a => [a, regByte spIndex]

/-- What an instruction appends to `out` (10_state.md R24). -/
def printedBy (i : Instr) (s : State) : List Printed :=
  match i with
  | .prn a => if h : a.toNat < 8 then [⟨s.reg ⟨a.toNat, h⟩⟩] else []
  | .ldi _ _ | .add _ _ | .mul _ _ | .cmp _ _ | .jeq _ | .jne _ | .jmp _ | .push _ | .pop _ | .call _ | .ret
  | .hlt | .unknown _ => []

/-- What an instruction appends to `diag` (10_state.md R25). -/
def reportedBy (i : Instr) (s : State) : List UnknownOpcode :=
  match i with
  | .unknown op => [⟨s.pc, op⟩]
  | .ldi _ _ | .add _ _ | .mul _ _ | .cmp _ _ | .jeq _ | .jne _ | .jmp _ | .push _ | .pop _ | .call _ | .ret
  | .prn _ | .hlt => []

end Sys2Proof.Machine
end

