-- ==== Sys2Proof/Certificates/Slice0/Obligations.lean ====
section
/-! DEFINITION. The statements for the provers, from the numbered rules of spec/. -/

open Sys2Proof Sys2Proof.Machine

/-! ### Reset and load -/

/-- 70_reset_and_hazards.md, section 1: memory is zero, `pc` is 0 and the machine is Running, for every
value of the open parameter SP_RESET, and so for the model's reset. -/
def Obligations.ResetMemoryPcRun : Prop :=
  (∀ sp : Byte, ∀ a, a ≤ 255 → (State.resetWith sp).cell a = 0x00#8) ∧
    (∀ sp : Byte, (State.resetWith sp).pc = 0 ∧ (State.resetWith sp).run = .running) ∧
    core.reset = State.resetWith Config.spReset

/-- 70_reset_and_hazards.md, section 1: the reset values that rest on the spec's own decisions D2, D3, D4,
D16; R7 is the model's choice of log 1. R0 to R6 are 0, R7 is SP_RESET, `fl` is None, both streams are
empty; the model's SP_RESET is 0xF4. -/
def Obligations.ResetRegistersFlagsStreams : Prop :=
  (∀ sp : Byte, ∀ i : Fin 8, (State.resetWith sp).reg i = if i = spIndex then sp else 0x00#8) ∧
    (∀ sp : Byte, (State.resetWith sp).fl = .none ∧ (State.resetWith sp).out = [] ∧ (State.resetWith sp).diag = []) ∧
    State.reset.sp = 0xF4#8

/-- The invariant holds at reset, for every SP_RESET. That `pc` is at most 256 is of 10_state.md, section 10
(which the spec marks as derived); that the memory is in canonical form is the model's choice (log 8). -/
def Obligations.ResetHasInvariant : Prop := State.reset.Inv ∧ ∀ sp : Byte, (State.resetWith sp).Inv

/-- 70_reset_and_hazards.md R172 (a load longer than the memory is the spec's decision D18): byte k of the
program goes to cell k, the cells above keep their value, nothing but memory changes, and a program of
more than 256 bytes raises OutOfBounds(256). The last clause, that the invariant is kept, is no part of the
rule: the canonical form of memory in it is the model's choice (log 8). -/
def Obligations.LoadPlacesProgram : Prop :=
  (∀ (bytes : List Byte) (s : State), bytes.length ≤ 256 → ∃ t, s.load bytes = .ok t ∧
      (∀ k b, bytes[k]? = some b → t.cell k = b) ∧ (∀ a, bytes.length ≤ a → t.cell a = s.cell a) ∧
      sameRegsBut [] s t ∧ t.pc = s.pc ∧ t.fl = s.fl ∧ t.run = s.run ∧ sameStreams s t ∧ (s.Inv → t.Inv)) ∧
    ∀ (bytes : List Byte) (s : State), 256 < bytes.length → s.load bytes = .error (.outOfBounds 256)

/-! ### Encoding -/

/-- 30_encoding.md R51 to R57: decoding the bytes of a well-formed instruction gives that instruction
and the bytes after it, with every operand at every value. -/
def Obligations.DecodeOfEncode : Prop :=
  ∀ (i : Instr) (rest : List Byte), i.wf = true → decode (encode i ++ rest) = .ok (i, rest)

/-- 30_encoding.md R58, R60: what decodes is well formed and its bytes are exactly the bytes it was read
from, so every bit of every instruction byte has one meaning. -/
def Obligations.EncodeOfDecode : Prop :=
  ∀ (bytes rest : List Byte) (i : Instr), decode bytes = .ok (i, rest) → i.wf = true ∧ encode i ++ rest = bytes

/-- 30_encoding.md R58, R59: every byte value decodes, and the only reason for none is that the bytes the
opcode's operand count asks for run out. -/
def Obligations.DecodeFailsOnlyWhenBytesRunOut : Prop :=
  (decode [] = .error .missingOpcode) ∧
    ∀ (op : Byte) (operands : List Byte),
      ((lookup op).operandCount ≤ operands.length →
        ∃ i, decode (op :: operands) = .ok (i, operands.drop (lookup op).operandCount) ∧ i.mnemonic = lookup op) ∧
      (operands.length < (lookup op).operandCount → operands.length = 0 →
        decode (op :: operands) = .error .missingFirstOperand) ∧
      (operands.length < (lookup op).operandCount → operands.length = 1 →
        decode (op :: operands) = .error .missingSecondOperand)

/-- 30_encoding.md section 3: the 13 opcodes are pairwise distinct, each selects its own row, and every
other byte is unknown. The byte values are the spec's decision D5 (log 4). -/
def Obligations.OpcodeTableIsUnambiguous : Prop :=
  opcodeTable.length = 13 ∧ opcodeTable.Pairwise (fun p q => p.1 ≠ q.1 ∧ p.2 ≠ q.2) ∧
    (∀ p ∈ opcodeTable, lookup p.1 = p.2) ∧ ∀ op, (∀ p ∈ opcodeTable, p.1 ≠ op) → lookup op = .unknown

/-- 30_encoding.md section 3: words written out from the table decode to the instruction they stand for. -/
def Obligations.SampleWordsDecode : Prop :=
  decode [0b10000010#8, 0x00#8, 0x08#8] = .ok (.ldi 0x00#8 0x08#8, []) ∧
    decode [0b10100111#8, 0x01#8, 0x02#8] = .ok (.cmp 0x01#8 0x02#8, []) ∧
    decode [0b01010110#8, 0x03#8] = .ok (.jne 0x03#8, []) ∧
    decode [0b01000101#8, 0x07#8] = .ok (.push 0x07#8, []) ∧
    decode [0b01010000#8, 0x01#8] = .ok (.call 0x01#8, []) ∧
    decode [0b00010001#8, 0x82#8] = .ok (.ret, [0x82#8]) ∧
    decode [0b01000111#8, 0x09#8] = .ok (.prn 0x09#8, []) ∧
    decode [0b00000000#8, 0x01#8] = .ok (.unknown 0x00#8, [0x01#8])

/-! ### The step -/

/-- 40_interpreter_loop.md R77: when the bytes at the program counter decode to an instruction, a step of
a running machine is exec of that instruction, with nothing around it. -/
def Obligations.StepRunsDecodedInstruction : Prop :=
  ∀ (s : State) (bytes rest : List Byte) (i : Instr), s.run = .running → decode bytes = .ok (i, rest) →
    (∀ k b, k < i.length → bytes[k]? = some b → memRead (s.pc + k) s = .ok b) → step s = exec i s

/-- A step exists exactly in Running. That Halted and Faulted(K) have no successor is of
40_interpreter_loop.md, section 1 (R71); that every Running state has one is of 70_reset_and_hazards.md,
section 5 (R180), and of the step function of 40_interpreter_loop.md, section 3, which the spec marks as derived. -/
def Obligations.StepExistsExactlyWhenRunning : Prop := ∀ s : State, (∃ t, step s = .next t) ↔ s.run = .running

/-- 40_interpreter_loop.md, section 1: where there is no step the model stops by a name of its own (the
model's choice, log 6). -/
def Obligations.TerminalStatesStopByName : Prop :=
  (∀ s : State, s.run = .halted → step s = .fault .halted) ∧
    ∀ (s : State) (k : FaultKind), s.run = .faulted k → step s = .fault (.faulted k)

/-- 40_interpreter_loop.md, section 2 (that `pc` does not wrap is the spec's decision D7): an opcode fetch at
256 raises OutOfBounds(256) with no other state change, and `pc` reaches 256 from 255. The spec speaks of 256
alone: that a fetch at a larger `pc`, which no run reaches, raises OutOfBounds(pc) is the model's choice (log 5). -/
def Obligations.FetchPastMemoryFaults : Prop :=
  (∀ s : State, s.run = .running → 256 ≤ s.pc → step s = .next (faultedAs (.outOfBounds s.pc) s)) ∧
    ∀ (s : State) (op : Byte), s.pc = 255 → ∃ t, exec (.unknown op) s = .next t ∧ t.pc = 256

/-- 40_interpreter_loop.md section 2 (eager operand fetch is the spec's decision D8): a running machine
with `pc` inside the memory fetches exactly the operand bytes its opcode has; it faults when one lies
outside, taken or not, used or not, and otherwise runs the instruction of that row. -/
def Obligations.OperandFetch : Prop :=
  ∀ s : State, s.run = .running → s.pc ≤ 255 →
    (256 ≤ s.pc + s.operandsHere → step s = .next (faultedAs (.outOfBounds 256) s)) ∧
      (s.pc + s.operandsHere ≤ 255 → ∃ i, i.wf = true ∧ i.mnemonic = lookup (s.cell s.pc) ∧ step s = exec i s ∧
        ∀ k b, (encode i)[k]? = some b → s.cell (s.pc + k) = b)

/-- 10_state.md R16: how each instruction leaves `pc`. -/
def Obligations.NextProgramCounter : Prop :=
  ∀ s t : State, step s = .next t →
    (∀ k, t.run = .faulted k → t.pc = s.pc) ∧
      ((∀ k, t.run ≠ .faulted k) → ∃ i, fetch s = .ok i ∧ nextPc i s t)

/-! ### Memory and the stack pointer -/

/-- 20_memory.md R31, R32: the read and write contracts. -/
def Obligations.MemoryContracts : Prop :=
  (∀ (addr : Nat) (v : Byte) (s : State), addr ≤ 255 → ∃ t, memWrite addr v s = .ok t ∧ memRead addr t = .ok v ∧
      (∀ a, a ≠ addr → memRead a t = memRead a s) ∧ sameRegsBut [] s t ∧ t.pc = s.pc ∧ t.fl = s.fl ∧
      t.run = s.run ∧ sameStreams s t) ∧
    (∀ (addr : Nat) (s : State), addr ≤ 255 → memRead addr s = .ok (s.cell addr)) ∧
    ∀ (addr : Nat) (v : Byte) (s : State), 256 ≤ addr →
      memRead addr s = .error (.outOfBounds addr) ∧ memWrite addr v s = .error (.outOfBounds addr)

/-- 20_memory.md, section 11: `sp` arithmetic wraps modulo 256, no stack access faults, and 256 pushes in a
row bring `sp` back to where it began, having overwritten every cell. What 256 pushes of R7 leave (each cell
its own address) rests on the spec's decision D13 (log 12). -/
def Obligations.StackPointerWraps : Prop :=
  (∀ s : State, s.decSp.sp.toNat = (s.sp.toNat + 255) % 256 ∧ s.incSp.sp.toNat = (s.sp.toNat + 1) % 256) ∧
    (∀ (s : State) (v : Byte), (∃ b, loadTop s = .ok b) ∧ ∃ t, storeTop v s = .ok t) ∧
    (∀ (a : Fin 8) (n : Nat) (s : State), ∃ t, execTimes (.push (regByte a)) n s = .next t ∧
      t.sp.toNat = (s.sp.toNat + 255 * n) % 256) ∧
    ∀ (a : Fin 8) (s : State), ∃ t, execTimes (.push (regByte a)) 256 s = .next t ∧ t.sp = s.sp ∧
      ∀ x, x ≤ 255 → t.cell x = if a = spIndex then BitVec.ofNat 8 x else s.reg a

/-- 20_memory.md section 9: a byte that PUSH or CALL stores is what every later fetch reads there, as
opcode or operand, as long as memory holds it. -/
def Obligations.StoreIsSeenByFetch : Prop :=
  ∀ (i j : Instr) (s t u : State) (v : Byte) (k : Nat), storedByte i s = some v → exec i s = .next t →
    (∀ a, u.cell a = t.cell a) → fetch u = .ok j → u.pc + k = s.pushAddr → k < j.length →
    (encode j)[k]? = some v

/-- 10_state.md R13: which instruction writes and which reads which register. An instruction that answers a
next state leaves every register the table does not say it writes; and with another value v in a register
the table does not say it reads, it does the same to everything but that register, which takes the same new
value if the instruction writes it and keeps v if not. -/
def Obligations.RegisterAccessTable : Prop :=
  (∀ (i : Instr) (s t : State) (j : Fin 8), exec i s = .next t → regByte j ∉ registersWritten i →
      t.reg j = s.reg j) ∧
    ∀ (i : Instr) (s t : State) (j : Fin 8) (v : Byte), exec i s = .next t → regByte j ∉ registersRead i s →
      ∃ u, exec i (s.withReg j v) = .next u ∧ u.withReg j (t.reg j) = t ∧
        (regByte j ∈ registersWritten i → u.reg j = t.reg j) ∧
        (regByte j ∉ registersWritten i → u.reg j = v)

/-! ### LDI -/

/-- 41_load_immediate.md R85: the encoding of LDI (its opcode byte is the one the rule gives, log 4), its effect on every
valid operand with everything it leaves unchanged, and its faults. -/
def Obligations.LoadImmediateRule : Prop :=
  (∀ a imm : Byte, encodedAs (.ldi a imm) [0x82#8, a, imm]) ∧
    (∀ (a : Fin 8) (imm : Byte) (s : State), ∃ t, exec (.ldi (regByte a) imm) s = .next t ∧ t.reg a = imm ∧
      sameRegsBut [a] s t ∧ t.pc = s.pc + 3 ∧ t.fl = s.fl ∧ t.run = s.run ∧ sameMemBut none s t ∧
      sameStreams s t) ∧
    (∀ (a imm : Byte) (s : State), 7 < a.toNat →
      exec (.ldi a imm) s = .next (faultedAs (.invalidRegister a) s)) ∧
    operandFetchFaultsFrom 0x82#8 254

/-! ### The ALU -/

/-- 42_alu.md R91, R92, R93: the three operations of the ALU block. -/
def Obligations.AluOperations : Prop :=
  (∀ (d r : Fin 8) (s : State), ∃ t, aluApply .add (regByte d) (regByte r) s = .ok t ∧
      (t.reg d).toNat = ((s.reg d).toNat + (s.reg r).toNat) % 256 ∧ sameRegsBut [d] s t ∧ t.fl = s.fl) ∧
    (∀ (d r : Fin 8) (s : State), ∃ t, aluApply .multiply (regByte d) (regByte r) s = .ok t ∧
      (t.reg d).toNat = ((s.reg d).toNat * (s.reg r).toNat) % 256 ∧ sameRegsBut [d] s t ∧ t.fl = s.fl) ∧
    ∀ (d r : Fin 8) (s : State), ∃ t, aluApply .compare (regByte d) (regByte r) s = .ok t ∧
      (t.fl = .less ↔ (s.reg d).toNat < (s.reg r).toNat) ∧ (t.fl = .greater ↔ (s.reg r).toNat < (s.reg d).toNat) ∧
      (t.fl = .equal ↔ s.reg d = s.reg r) ∧ t.fl ≠ .none ∧ sameRegsBut [] s t

/-- 42_alu.md section 1: any other selector fails with UnsupportedOperation (the wider selector is the
model's, log 15), which no step of a running machine ever raises (an inference the spec marks as derived). -/
def Obligations.UnsupportedOperationUnreachable : Prop :=
  (∀ (n : Nat) (d r : Fin 8) (s : State),
      aluApply (.other n) (regByte d) (regByte r) s = .error .unsupportedOperation) ∧
    ∀ s t : State, step s = .next t → t.run ≠ .faulted .unsupportedOperation

/-- 42_alu.md R95: the encoding of ADD (its opcode byte is the one the rule gives, log 4), its effect on every
valid operand with everything it leaves unchanged, and its faults. -/
def Obligations.AddRule : Prop :=
  (∀ a b : Byte, encodedAs (.add a b) [0xA0#8, a, b]) ∧
    (∀ (a b : Fin 8) (s : State), ∃ t, exec (.add (regByte a) (regByte b)) s = .next t ∧
      (t.reg a).toNat = ((s.reg a).toNat + (s.reg b).toNat) % 256 ∧ sameRegsBut [a] s t ∧ t.pc = s.pc + 3 ∧
      t.fl = s.fl ∧ t.run = s.run ∧ sameMemBut none s t ∧ sameStreams s t) ∧
    (∀ (a b : Byte) (s : State), 7 < a.toNat → exec (.add a b) s = .next (faultedAs (.invalidRegister a) s)) ∧
    (∀ (a b : Byte) (s : State), a.toNat ≤ 7 → 7 < b.toNat →
      exec (.add a b) s = .next (faultedAs (.invalidRegister b) s)) ∧
    operandFetchFaultsFrom 0xA0#8 254

/-- 42_alu.md R96: the encoding of MUL (its opcode byte is the one the rule gives, log 4), its effect on every
valid operand with everything it leaves unchanged, and its faults. -/
def Obligations.MultiplyRule : Prop :=
  (∀ a b : Byte, encodedAs (.mul a b) [0xA2#8, a, b]) ∧
    (∀ (a b : Fin 8) (s : State), ∃ t, exec (.mul (regByte a) (regByte b)) s = .next t ∧
      (t.reg a).toNat = ((s.reg a).toNat * (s.reg b).toNat) % 256 ∧ sameRegsBut [a] s t ∧ t.pc = s.pc + 3 ∧
      t.fl = s.fl ∧ t.run = s.run ∧ sameMemBut none s t ∧ sameStreams s t) ∧
    (∀ (a b : Byte) (s : State), 7 < a.toNat → exec (.mul a b) s = .next (faultedAs (.invalidRegister a) s)) ∧
    (∀ (a b : Byte) (s : State), a.toNat ≤ 7 → 7 < b.toNat →
      exec (.mul a b) s = .next (faultedAs (.invalidRegister b) s)) ∧
    operandFetchFaultsFrom 0xA2#8 254

/-- 42_alu.md R97: the encoding of CMP (its opcode byte is the one the rule gives, log 4), its effect on every
valid operand with everything it leaves unchanged, and its faults. -/
def Obligations.CompareRule : Prop :=
  (∀ a b : Byte, encodedAs (.cmp a b) [0xA7#8, a, b]) ∧
    (∀ (a b : Fin 8) (s : State), ∃ t, exec (.cmp (regByte a) (regByte b)) s = .next t ∧
      t.fl = (if (s.reg a).toNat < (s.reg b).toNat then .less
        else if (s.reg a).toNat > (s.reg b).toNat then .greater else .equal) ∧
      sameRegsBut [] s t ∧ t.pc = s.pc + 3 ∧ t.run = s.run ∧ sameMemBut none s t ∧ sameStreams s t) ∧
    (∀ (a b : Byte) (s : State), 7 < a.toNat → exec (.cmp a b) s = .next (faultedAs (.invalidRegister a) s)) ∧
    (∀ (a b : Byte) (s : State), a.toNat ≤ 7 → 7 < b.toNat →
      exec (.cmp a b) s = .next (faultedAs (.invalidRegister b) s)) ∧
    operandFetchFaultsFrom 0xA7#8 254

/-- 10_state.md R18, 42_alu.md R99: only CMP writes `fl`, by exec and by step; and only JEQ and JNE read
it: any other instruction does the same to everything but `fl` whatever `fl` holds, and a CMP of valid
registers (the CMP that does not fault) leaves the same `fl` too. -/
def Obligations.OnlyCompareWritesAndJumpsReadFlags : Prop :=
  (∀ (i : Instr) (s t : State), i.mnemonic ≠ .cmp → exec i s = .next t → t.fl = s.fl) ∧
    (∀ s t : State, (∀ a b, fetch s ≠ .ok (.cmp a b)) → step s = .next t → t.fl = s.fl) ∧
    ∀ (i : Instr) (s t : State) (f : Flags), i.mnemonic ≠ .jeq → i.mnemonic ≠ .jne → exec i s = .next t →
      ∃ u, exec i (s.withFl f) = .next u ∧ u.withFl t.fl = t ∧
        ∀ a b : Fin 8, i = .cmp (regByte a) (regByte b) → u.fl = t.fl

/-- 10_state.md section 3 (the value None is the spec's decision D4): no instruction writes None. -/
def Obligations.NoneFlagIsNeverWritten : Prop :=
  ∀ s t : State, step s = .next t → t.fl = .none → s.fl = .none

/-- 10_state.md section 3 (an inference the spec marks as derived): None, Less and Greater cannot be told
apart: from two states that differ only in which of them `fl` holds, a step goes to two such states. -/
def Obligations.NonEqualFlagsAreIndistinguishable : Prop :=
  ∀ (s t : State) (f : Flags), s.fl ≠ .equal → f ≠ .equal → step s = .next t →
    ∃ u, step (s.withFl f) = .next u ∧ u.withFl t.fl = t ∧ (u.fl = t.fl ∨ (u.fl = f ∧ t.fl = s.fl))

/-! ### The jumps -/

/-- 43_jumps.md R100: the encoding of JEQ (its opcode byte is the one the rule gives, log 4), its effect on every
valid operand with everything it leaves unchanged, and its faults. -/
def Obligations.JumpIfEqualRule : Prop :=
  (∀ a : Byte, encodedAs (.jeq a) [0x55#8, a]) ∧
    (∀ (a : Fin 8) (s : State), s.fl = .equal → ∃ t, exec (.jeq (regByte a)) s = .next t ∧
      t.pc = (s.reg a).toNat ∧ sameRegsBut [] s t ∧ t.fl = s.fl ∧ t.run = s.run ∧ sameMemBut none s t ∧
      sameStreams s t) ∧
    (∀ (a : Byte) (s : State), s.fl ≠ .equal → ∃ t, exec (.jeq a) s = .next t ∧
      t.pc = s.pc + 2 ∧ sameRegsBut [] s t ∧ t.fl = s.fl ∧ t.run = s.run ∧ sameMemBut none s t ∧
      sameStreams s t) ∧
    (∀ (a : Byte) (s : State), s.fl = .equal → 7 < a.toNat →
      exec (.jeq a) s = .next (faultedAs (.invalidRegister a) s)) ∧
    operandFetchFaultsFrom 0x55#8 255

/-- 43_jumps.md section on JNE (that None is taken is an inference the spec marks as derived). -/
def Obligations.JumpIfNotEqualRule : Prop :=
  (∀ a : Byte, encodedAs (.jne a) [0x56#8, a]) ∧
    (∀ (a : Fin 8) (s : State), s.fl ≠ .equal → ∃ t, exec (.jne (regByte a)) s = .next t ∧
      t.pc = (s.reg a).toNat ∧ sameRegsBut [] s t ∧ t.fl = s.fl ∧ t.run = s.run ∧ sameMemBut none s t ∧
      sameStreams s t) ∧
    (∀ (a : Byte) (s : State), s.fl = .equal → ∃ t, exec (.jne a) s = .next t ∧
      t.pc = s.pc + 2 ∧ sameRegsBut [] s t ∧ t.fl = s.fl ∧ t.run = s.run ∧ sameMemBut none s t ∧
      sameStreams s t) ∧
    (∀ (a : Byte) (s : State), s.fl ≠ .equal → 7 < a.toNat →
      exec (.jne a) s = .next (faultedAs (.invalidRegister a) s)) ∧
    operandFetchFaultsFrom 0x56#8 255

/-- 43_jumps.md R102: the encoding of JMP (its opcode byte is the one the rule gives, log 4), its effect on every
valid operand with everything it leaves unchanged, and its faults. -/
def Obligations.JumpRule : Prop :=
  (∀ a : Byte, encodedAs (.jmp a) [0x54#8, a]) ∧
    (∀ (a : Fin 8) (s : State), ∃ t, exec (.jmp (regByte a)) s = .next t ∧
      t.pc = (s.reg a).toNat ∧ sameRegsBut [] s t ∧ t.fl = s.fl ∧ t.run = s.run ∧ sameMemBut none s t ∧
      sameStreams s t) ∧
    (∀ (a : Byte) (s : State), 7 < a.toNat → exec (.jmp a) s = .next (faultedAs (.invalidRegister a) s)) ∧
    (∀ (a : Byte) (s : State) (f : Flags), ∃ t u, exec (.jmp a) s = .next t ∧ exec (.jmp a) (s.withFl f) = .next u ∧
      u = t.withFl f) ∧
    operandFetchFaultsFrom 0x54#8 255

/-- 43_jumps.md section on JNE: JEQ and JNE are exact complements: in any state exactly one is taken. -/
def Obligations.ConditionalJumpsAreComplementary : Prop :=
  ∀ (a : Fin 8) (s : State), ∃ t u, exec (.jeq (regByte a)) s = .next t ∧ exec (.jne (regByte a)) s = .next u ∧
    ((t = s.jumpTo (s.reg a) ∧ u = s.advance 2) ∨ (t = s.advance 2 ∧ u = s.jumpTo (s.reg a)))

/-! ### The stack -/

/-- 44_stack.md, section on PUSH (precision and PUSH R7 are the spec's decisions D11, D13): the stored
value is the register read after the decrement. -/
def Obligations.PushRule : Prop :=
  (∀ a : Byte, encodedAs (.push a) [0x45#8, a]) ∧
    (∀ (a : Fin 8) (s : State), ∃ t, exec (.push (regByte a)) s = .next t ∧ t.sp = s.sp - 1#8 ∧
      s.pushAddr = (s.sp - 1#8).toNat ∧ t.cell s.pushAddr = (if a = spIndex then s.sp - 1#8 else s.reg a) ∧
      sameRegsBut [spIndex] s t ∧ sameMemBut (some s.pushAddr) s t ∧ t.pc = s.pc + 2 ∧ t.fl = s.fl ∧
      t.run = s.run ∧ sameStreams s t) ∧
    (∀ (a : Byte) (s : State), 7 < a.toNat → exec (.push a) s = .next (faultedAs (.invalidRegister a) s)) ∧
    operandFetchFaultsFrom 0x45#8 255

/-- 44_stack.md, section on POP (POP R7 is the spec's decision D13): the read is at the old `sp`; popping
into R7 increments what was popped. -/
def Obligations.PopRule : Prop :=
  (∀ a : Byte, encodedAs (.pop a) [0x46#8, a]) ∧
    (∀ (a : Fin 8) (s : State), ∃ t, exec (.pop (regByte a)) s = .next t ∧
      (a ≠ spIndex → t.reg a = s.cell s.sp.toNat ∧ t.sp = s.sp + 1#8) ∧
      (a = spIndex → t.sp = s.cell s.sp.toNat + 1#8) ∧
      sameRegsBut [a, spIndex] s t ∧ sameMemBut none s t ∧ t.pc = s.pc + 2 ∧ t.fl = s.fl ∧ t.run = s.run ∧
      sameStreams s t) ∧
    (∀ (a : Byte) (s : State), 7 < a.toNat → exec (.pop a) s = .next (faultedAs (.invalidRegister a) s)) ∧
    operandFetchFaultsFrom 0x46#8 255

/-- 44_stack.md, round-trip law (its exact form is marked derived; R7 rests on decision D13): PUSH Ra then
POP Ra leaves every register as it was, and the pushed cell is the only change besides `pc`. -/
def Obligations.PushThenPopRoundTrip : Prop :=
  ∀ (a : Fin 8) (s : State), ∃ t u, exec (.push (regByte a)) s = .next t ∧ exec (.pop (regByte a)) t = .next u ∧
    sameRegsBut [] s u ∧ u.cell s.pushAddr = (if a = spIndex then s.sp - 1#8 else s.reg a) ∧
    sameMemBut (some s.pushAddr) s u ∧ u.pc = s.pc + 4 ∧ u.fl = s.fl ∧ u.run = s.run ∧ sameStreams s u

/-! ### Subroutine linkage -/

/-- 45_call_return.md, section on CALL (the fault without a return address and CALL R7 are the spec's
decisions D12, D13). -/
def Obligations.CallRule : Prop :=
  (∀ a : Byte, encodedAs (.call a) [0x50#8, a]) ∧
    (∀ (a : Fin 8) (s : State), s.pc ≤ 253 → ∃ t, exec (.call (regByte a)) s = .next t ∧ t.sp = s.sp - 1#8 ∧
      s.pushAddr = (s.sp - 1#8).toNat ∧ (t.cell s.pushAddr).toNat = s.pc + 2 ∧
      t.pc = (if a = spIndex then s.sp - 1#8 else s.reg a).toNat ∧
      sameRegsBut [spIndex] s t ∧ sameMemBut (some s.pushAddr) s t ∧ t.fl = s.fl ∧ t.run = s.run ∧
      sameStreams s t) ∧
    (∀ (a : Byte) (s : State), 7 < a.toNat → exec (.call a) s = .next (faultedAs (.invalidRegister a) s)) ∧
    (∀ (a : Fin 8) (s : State), 254 ≤ s.pc →
      exec (.call (regByte a)) s = .next (faultedAs (.outOfBounds (s.pc + 2)) s)) ∧
    operandFetchFaultsFrom 0x50#8 255

/-- 45_call_return.md R121: the encoding of RET (its opcode byte is the one the rule gives, log 4), its effect with everything
it leaves unchanged, and that it has no fault, at the last address either. -/
def Obligations.ReturnRule : Prop :=
  encodedAs .ret [0x11#8] ∧
    (∀ s : State, ∃ t, exec .ret s = .next t ∧ t.pc = (s.cell s.sp.toNat).toNat ∧ t.sp = s.sp + 1#8 ∧
      sameRegsBut [spIndex] s t ∧ sameMemBut none s t ∧ t.fl = s.fl ∧ t.run = s.run ∧ sameStreams s t) ∧
    ∀ s : State, s.run = .running → s.pc ≤ 255 → s.cell s.pc = 0x11#8 → step s = exec .ret s

/-- 45_call_return.md, call/return law (its exact form is marked derived): after a CALL at c ≤ 253, a RET
with `sp` and the saved cell as the CALL left them leaves `pc` at c + 2 and `sp` as before the CALL, with
R0 to R6 and `fl` neither saved nor restored. -/
def Obligations.CallThenReturn : Prop :=
  ∀ (a : Fin 8) (s : State), s.pc ≤ 253 → ∃ t, exec (.call (regByte a)) s = .next t ∧
    ∀ u : State, u.sp = t.sp → u.cell s.pushAddr = t.cell s.pushAddr → ∃ v, exec .ret u = .next v ∧
      v.pc = s.pc + 2 ∧ v.sp = s.sp ∧ sameRegsBut [spIndex] u v ∧ v.fl = u.fl

/-! ### Output, halt and the unknown opcode -/

/-- 46_print_halt.md R130: the encoding of PRN (its opcode byte is the one the rule gives, log 4), its effect on every
valid operand with everything it leaves unchanged, and its faults. -/
def Obligations.PrintRule : Prop :=
  (∀ a : Byte, encodedAs (.prn a) [0x47#8, a]) ∧
    (∀ (a : Fin 8) (s : State), ∃ t, exec (.prn (regByte a)) s = .next t ∧ t.out = s.out ++ [⟨s.reg a⟩] ∧
      t.diag = s.diag ∧ t.pc = s.pc + 2 ∧ sameRegsBut [] s t ∧ sameMemBut none s t ∧ t.fl = s.fl ∧
      t.run = s.run) ∧
    (∀ (a : Byte) (s : State), 7 < a.toNat → exec (.prn a) s = .next (faultedAs (.invalidRegister a) s)) ∧
    operandFetchFaultsFrom 0x47#8 255

/-- 46_print_halt.md, section on HLT (the final `pc` is the spec's decision D17): also at address 255,
where it halts cleanly. -/
def Obligations.HaltRule : Prop :=
  encodedAs .hlt [0x01#8] ∧
    (∀ s : State, ∃ t, exec .hlt s = .next t ∧ t.run = .halted ∧ t.pc = s.pc + 1 ∧ sameRegsBut [] s t ∧
      sameMemBut none s t ∧ t.fl = s.fl ∧ sameStreams s t) ∧
    ∀ s : State, s.run = .running → s.pc ≤ 255 → s.cell s.pc = 0x01#8 → step s = exec .hlt s

/-- 40_interpreter_loop.md, section on UNKNOWN (what the report carries is the spec's decision D23): any
byte outside the table is reported and advances `pc` by one, and the run goes on. -/
def Obligations.UnknownOpcodeRule : Prop :=
  (∀ op : Byte, lookup op = .unknown → encodedAs (.unknown op) [op]) ∧
    (∀ (op : Byte) (s : State), ∃ t, exec (.unknown op) s = .next t ∧ t.diag = s.diag ++ [⟨s.pc, op⟩] ∧
      t.out = s.out ∧ t.pc = s.pc + 1 ∧ sameRegsBut [] s t ∧ sameMemBut none s t ∧ t.fl = s.fl ∧
      t.run = s.run) ∧
    (∀ s : State, s.run = .running → s.pc ≤ 255 → lookup (s.cell s.pc) = .unknown →
      step s = exec (.unknown (s.cell s.pc)) s) ∧
    lookup 0x00#8 = .unknown

/-! ### Frames: what an instruction leaves unchanged, for every operand, when it answers a next state -/

/-- LDI, ADD, MUL change no register but the one their first operand names. -/
def Obligations.FrameRegisterWriters : Prop :=
  ∀ (i : Instr) (a : Byte) (s t : State), (∃ b, i = .ldi a b ∨ i = .add a b ∨ i = .mul a b) → exec i s = .next t →
    (∀ j, regByte j ≠ a → t.reg j = s.reg j) ∧ t.fl = s.fl ∧ sameRunOrFault s t ∧ sameMemBut none s t ∧
      sameStreams s t

/-- CMP, JEQ, JNE, JMP change no register and no memory; only CMP changes `fl`. -/
def Obligations.FrameCompareAndJumps : Prop :=
  ∀ (i : Instr) (a : Byte) (s t : State), (i = .jeq a ∨ i = .jne a ∨ i = .jmp a ∨ ∃ b, i = .cmp a b) →
    exec i s = .next t → sameRegsBut [] s t ∧ (t.fl = s.fl ∨ ∃ b, i = .cmp a b) ∧ sameRunOrFault s t ∧
      sameMemBut none s t ∧ sameStreams s t

/-- PUSH and CALL change no register but R7 and no byte of memory but the one at the push address. -/
def Obligations.FrameStackStores : Prop :=
  ∀ (i : Instr) (a : Byte) (s t : State), (i = .push a ∨ i = .call a) → exec i s = .next t →
    sameRegsBut [spIndex] s t ∧ t.fl = s.fl ∧ sameRunOrFault s t ∧ sameMemBut (some s.pushAddr) s t ∧
      sameStreams s t

/-- POP changes no register but R7 and the one its operand names; RET none but R7; neither stores. -/
def Obligations.FrameStackLoads : Prop :=
  ∀ (i : Instr) (a : Byte) (s t : State), (i = .pop a ∨ i = .ret) → exec i s = .next t →
    (∀ j, j ≠ spIndex → (i = .pop a → regByte j ≠ a) → t.reg j = s.reg j) ∧ t.fl = s.fl ∧ sameRunOrFault s t ∧
      sameMemBut none s t ∧ sameStreams s t

/-- PRN, HLT and an unknown opcode change no register, no flag and no memory; only PRN changes `out`, only
the unknown opcode changes `diag`, only HLT and a fault change the run state. -/
def Obligations.FrameOutputHaltUnknown : Prop :=
  ∀ (i : Instr) (a : Byte) (s t : State), (i = .prn a ∨ i = .hlt ∨ i = .unknown a) → exec i s = .next t →
    sameRegsBut [] s t ∧ t.fl = s.fl ∧ sameMemBut none s t ∧ (t.out = s.out ∨ i = .prn a) ∧
      (t.diag = s.diag ∨ i = .unknown a) ∧ (sameRunOrFault s t ∨ i = .hlt)

/-! ### Faults -/

/-- 60_exceptions.md, section 3 (precise faults are the spec's decision D11): a step that faults changes
the run state and nothing else, wherever in the cycle the fault arose. -/
def Obligations.FaultsArePrecise : Prop :=
  ∀ (s t : State) (k : FaultKind), step s = .next t → t.run = .faulted k → t = faultedAs k s

/-- 60_exceptions.md, section 1, the table of OutOfBounds (the CALL row is the spec's decision D12): a
running machine raises it exactly in those cases, and reports address 256. -/
def Obligations.OutOfBoundsCauses : Prop :=
  ∀ s : State, s.run = .running → s.pc ≤ 256 →
    (outOfBoundsHere s ↔ step s = .next (faultedAs (.outOfBounds 256) s)) ∧
      ∀ t addr, step s = .next t → t.run = .faulted (.outOfBounds addr) → addr = 256

/-- 60_exceptions.md, section 1, the table of InvalidRegister (lazy checks are the spec's decision D9): an
instruction of a machine that has not faulted raises it exactly in those cases, with that index. -/
def Obligations.InvalidRegisterCauses : Prop :=
  ∀ (i : Instr) (s t : State) (x : Byte), (∀ k, s.run ≠ .faulted k) → exec i s = .next t →
    (t.run = .faulted (.invalidRegister x) ↔ invalidRegisterOf i s = some x)

/-- 60_exceptions.md, section 2 (the order of checks is the spec's decision D10): operand fetch before
register a, register a before register b, register before the return address of CALL. -/
def Obligations.FaultPriority : Prop :=
  (∀ s : State, s.run = .running → s.pc = 254 → s.cell 254 = 0xA0#8 →
      step s = .next (faultedAs (.outOfBounds 256) s)) ∧
    (∀ (a b : Byte) (s : State), 7 < a.toNat → 7 < b.toNat →
      exec (.add a b) s = .next (faultedAs (.invalidRegister a) s) ∧
      exec (.mul a b) s = .next (faultedAs (.invalidRegister a) s) ∧
      exec (.cmp a b) s = .next (faultedAs (.invalidRegister a) s)) ∧
    ∀ (a : Byte) (s : State), 7 < a.toNat → s.pc = 254 →
      exec (.call a) s = .next (faultedAs (.invalidRegister a) s)

/-- 60_exceptions.md, section 1: the numbers for the host (the spec's decision D14) and the recorded value. -/
def Obligations.FaultCodesAndRecordedValues : Prop :=
  (∀ addr, (FaultKind.outOfBounds addr).code = 1 ∧ (FaultKind.outOfBounds addr).recorded = some addr) ∧
    (∀ x, (FaultKind.invalidRegister x).code = 2 ∧ (FaultKind.invalidRegister x).recorded = some x.toNat) ∧
    FaultKind.unsupportedOperation.code = 3 ∧ (∀ e : UnknownOpcode, e.code = 4) ∧
    ∀ r : RunState, r.faultCode = 0 ↔ ∀ k, r ≠ .faulted k

/-! ### The whole machine -/

/-- Every step keeps the invariant. That `pc` is at most 256 is of 10_state.md, section 10 (which the spec
marks as derived); that the memory is in canonical form is the model's choice (log 8). -/
def Obligations.StepKeepsInvariant : Prop := ∀ s t : State, s.Inv → step s = .next t → t.Inv

/-- 10_state.md R21: the initial state is Running at 0; only HLT reaches Halted, and it does; Halted is
terminal; and no instruction reads the run state: it sets the same one whatever it was, or keeps what it was. -/
def Obligations.OnlyHaltReachesHalted : Prop :=
  (State.reset.run = .running ∧ State.reset.pc = 0) ∧
    (∀ s t : State, step s = .next t → (t.run = .halted ↔ fetch s = .ok .hlt)) ∧
    (∀ s : State, s.run = .halted → ∀ t, step s ≠ .next t) ∧
    ∀ (i : Instr) (s t : State), exec i s = .next t →
      (∀ r : RunState, exec i (s.withRun r) = .next t) ∨
        ∀ r : RunState, exec i (s.withRun r) = .next (t.withRun r)

/-- 20_memory.md, section 1: a step that changes any byte of memory executed PUSH or CALL, and the byte it
changed is the one at the push address. -/
def Obligations.OnlyPushAndCallStore : Prop :=
  ∀ (s t : State) (x : Nat), step s = .next t → t.cell x ≠ s.cell x →
    x = s.pushAddr ∧ ∃ a : Fin 8, fetch s = .ok (.push (regByte a)) ∨ fetch s = .ok (.call (regByte a))

/-- 10_state.md, section 7 (the two streams are the spec's decision D16): an instruction appends to `out`
and `diag` exactly what its rule says, and nothing else is appended or removed. -/
def Obligations.StreamsGrowByTheRule : Prop :=
  ∀ (i : Instr) (s t : State), exec i s = .next t →
    t.out = s.out ++ printedBy i s ∧ t.diag = s.diag ++ reportedBy i s

/-- 10_state.md, section 7: no instruction reads `out` or `diag`: with other streams a step does the same
and appends the same. -/
def Obligations.StreamsAreNeverRead : Prop :=
  ∀ (s t : State) (o : List Printed) (d : List UnknownOpcode), step s = .next t →
    ∃ po pd, t.out = s.out ++ po ∧ t.diag = s.diag ++ pd ∧
      step { s with out := o, diag := d } = .next { t with out := o ++ po, diag := d ++ pd }

/-- 70_reset_and_hazards.md, section 4: a machine that runs into the zero-filled rest of memory executes each
0x00 as a reported no-op and faults with OutOfBounds(256) when `pc` passes address 255. That a report holds
the address and the byte rests on the spec's decision D23 (log 7). -/
def Obligations.RunningOffTheEnd : Prop :=
  ∀ s : State, s.run = .running → s.pc ≤ 256 → (∀ a, s.pc ≤ a → a ≤ 255 → s.cell a = 0x00#8) →
    ∃ t, stepTimes (256 - s.pc) s = .next t ∧ t.pc = 256 ∧ t.run = .running ∧
      t.diag = s.diag ++ (List.range (256 - s.pc)).map (fun k => ⟨s.pc + k, 0x00#8⟩) ∧
      sameRegsBut [] s t ∧ sameMemBut none s t ∧ t.fl = s.fl ∧ t.out = s.out ∧
      step t = .next (faultedAs (.outOfBounds 256) t)
end

