-- ==== Sys2Proof/Laws/Decode.lean ====
section
/-! SUPPORT. The opcode table, the encoder and the one decoder: what a lookup can answer and what
`decodeWith` does for each operand count (30_encoding.md R57, R58; 40_interpreter_loop.md R73). -/

namespace Sys2Proof

/-- The opcode byte of a row; a row that is not `unknown` has exactly one. -/
theorem opcode_of_lookup {op : Byte} {m : Mnemonic} (h : lookup op = m) (hm : m ≠ .unknown) :
    opcodeTable.lookup op = some m := by
  rw [lookup] at h
  cases ho : opcodeTable.lookup op with
  | none => exact absurd (by simpa [ho] using h.symm) hm
  | some m' => simpa [ho] using h

/-- The bytes of the instruction a table row stands for are the bytes it was assembled from. -/
theorem encode_assemble (op opA opB : Byte) :
    encode (assemble (lookup op) op opA opB) = [op, opA, opB].take (1 + (lookup op).operandCount) := by
  generalize hm : lookup op = m
  cases m <;> first
    | rfl
    | (have h := opcode_of_lookup hm (by simp)
       simp only [opcodeTable, List.lookup] at h
       repeat' split at h
       all_goals first
         | (simp at h; done)
         | (rename_i heq; rw [eq_of_beq heq]; rfl))

/-- The opcode byte of a well-formed instruction looks up its own row. -/
theorem lookup_encode {i : Instr} (h : i.wf = true) :
    ∃ op rest, encode i = op :: rest ∧ lookup op = i.mnemonic ∧ rest.length = i.mnemonic.operandCount := by
  cases i <;> first
    | exact ⟨_, _, rfl, by simp only [Instr.mnemonic]; decide, rfl⟩
    | exact ⟨_, _, rfl, by simpa [Instr.wf, Instr.mnemonic] using h, rfl⟩

/-- What the decoder builds from a row is a well-formed instruction of that row. -/
theorem assemble_wf (op opA opB : Byte) : (assemble (lookup op) op opA opB).wf = true := by
  generalize hm : lookup op = m
  cases m <;> simp [assemble, Instr.wf, hm]

@[simp] theorem assemble_mnemonic (m : Mnemonic) (op opA opB : Byte) : (assemble m op opA opB).mnemonic = m := by
  cases m <;> rfl

/-- Putting an instruction together again from its own bytes. -/
theorem assemble_encode {i : Instr} {op : Byte} {rest : List Byte} (h : encode i = op :: rest) (opA opB : Byte)
    (hA : ∀ b, rest[0]? = some b → opA = b) (hB : ∀ b, rest[1]? = some b → opB = b) :
    assemble i.mnemonic op opA opB = i := by
  cases i <;> simp_all [encode, assemble, Instr.mnemonic] <;> obtain ⟨rfl, rfl⟩ := h <;> simp_all

theorem Mnemonic.operandCount_le (m : Mnemonic) : m.operandCount ≤ 2 := by
  cases m <;> decide

/-- The bounds hold for every row of the table. -/
theorem Instr.length_bounds (i : Instr) : 1 ≤ i.length ∧ i.length ≤ 3 :=
  ⟨Nat.le_add_right 1 _, Nat.add_le_add_left (Mnemonic.operandCount_le _) 1⟩

variable {ε : Type} {read : Nat → Except ε Byte} {op opA opB : Byte} {e : ε}

theorem decodeWith_no_opcode (h : read 0 = .error e) : decodeWith read = .error e := by
  simp [decodeWith, h, bind, Except.bind]

theorem decodeWith_none (h0 : read 0 = .ok op) (hn : (lookup op).operandCount = 0) :
    decodeWith read = .ok (assemble (lookup op) op 0#8 0#8) := by
  simp [decodeWith, h0, hn, bind, Except.bind, pure, Except.pure]

theorem decodeWith_one (h0 : read 0 = .ok op) (hn : (lookup op).operandCount = 1) (hA : read 1 = .ok opA) :
    decodeWith read = .ok (assemble (lookup op) op opA 0#8) := by
  simp [decodeWith, h0, hn, hA, bind, Except.bind, pure, Except.pure]

theorem decodeWith_two (h0 : read 0 = .ok op) (hn : (lookup op).operandCount = 2) (hA : read 1 = .ok opA)
    (hB : read 2 = .ok opB) : decodeWith read = .ok (assemble (lookup op) op opA opB) := by
  simp [decodeWith, h0, hn, hA, hB, bind, Except.bind, pure, Except.pure]

theorem decodeWith_no_first (h0 : read 0 = .ok op) (hn : 1 ≤ (lookup op).operandCount) (hA : read 1 = .error e) :
    decodeWith read = .error e := by
  simp [decodeWith, h0, hn, hA, bind, Except.bind]

theorem decodeWith_no_second (h0 : read 0 = .ok op) (hn : (lookup op).operandCount = 2) (hA : read 1 = .ok opA)
    (hB : read 2 = .error e) : decodeWith read = .error e := by
  simp [decodeWith, h0, hn, hA, hB, bind, Except.bind]

end Sys2Proof
end

