-- ==== Sys2Proof/Laws/State.lean ====
section
/-! SUPPORT. One lemma per field per update of a state, so that no proof unfolds a record update. -/

namespace Sys2Proof.Machine

variable (s : State)

/-! ### withReg -/

@[simp] theorem State.withReg_pc (i : Fin 8) (v : Byte) : (s.withReg i v).pc = s.pc := rfl
@[simp] theorem State.withReg_fl (i : Fin 8) (v : Byte) : (s.withReg i v).fl = s.fl := rfl
@[simp] theorem State.withReg_run (i : Fin 8) (v : Byte) : (s.withReg i v).run = s.run := rfl
@[simp] theorem State.withReg_mem (i : Fin 8) (v : Byte) : (s.withReg i v).mem = s.mem := rfl
@[simp] theorem State.withReg_out (i : Fin 8) (v : Byte) : (s.withReg i v).out = s.out := rfl
@[simp] theorem State.withReg_diag (i : Fin 8) (v : Byte) : (s.withReg i v).diag = s.diag := rfl

@[simp] theorem State.withReg_reg (i j : Fin 8) (v : Byte) :
    (s.withReg i v).reg j = if j = i then v else s.reg j := by
  simp only [State.reg, State.withReg, Vector.getElem_set, Fin.val_inj, eq_comm (a := i)]

theorem State.withReg_sp (i : Fin 8) (v : Byte) :
    (s.withReg i v).sp = if i = spIndex then v else s.sp := by
  simp [State.sp, eq_comm (a := i)]

@[simp] theorem State.withReg_cell (i : Fin 8) (v : Byte) (a : Nat) : (s.withReg i v).cell a = s.cell a := rfl

/-! ### withPc -/

@[simp] theorem State.withPc_regs (n : Nat) : (s.withPc n).regs = s.regs := rfl
@[simp] theorem State.withPc_pc (n : Nat) : (s.withPc n).pc = n := rfl
@[simp] theorem State.withPc_fl (n : Nat) : (s.withPc n).fl = s.fl := rfl
@[simp] theorem State.withPc_run (n : Nat) : (s.withPc n).run = s.run := rfl
@[simp] theorem State.withPc_mem (n : Nat) : (s.withPc n).mem = s.mem := rfl
@[simp] theorem State.withPc_out (n : Nat) : (s.withPc n).out = s.out := rfl
@[simp] theorem State.withPc_diag (n : Nat) : (s.withPc n).diag = s.diag := rfl
@[simp] theorem State.withPc_reg (n : Nat) (j : Fin 8) : (s.withPc n).reg j = s.reg j := rfl
@[simp] theorem State.withPc_sp (n : Nat) : (s.withPc n).sp = s.sp := rfl
@[simp] theorem State.withPc_cell (n : Nat) (a : Nat) : (s.withPc n).cell a = s.cell a := rfl

/-! ### withFl -/

@[simp] theorem State.withFl_regs (f : Flags) : (s.withFl f).regs = s.regs := rfl
@[simp] theorem State.withFl_pc (f : Flags) : (s.withFl f).pc = s.pc := rfl
@[simp] theorem State.withFl_fl (f : Flags) : (s.withFl f).fl = f := rfl
@[simp] theorem State.withFl_run (f : Flags) : (s.withFl f).run = s.run := rfl
@[simp] theorem State.withFl_mem (f : Flags) : (s.withFl f).mem = s.mem := rfl
@[simp] theorem State.withFl_out (f : Flags) : (s.withFl f).out = s.out := rfl
@[simp] theorem State.withFl_diag (f : Flags) : (s.withFl f).diag = s.diag := rfl
@[simp] theorem State.withFl_reg (f : Flags) (j : Fin 8) : (s.withFl f).reg j = s.reg j := rfl
@[simp] theorem State.withFl_sp (f : Flags) : (s.withFl f).sp = s.sp := rfl
@[simp] theorem State.withFl_cell (f : Flags) (a : Nat) : (s.withFl f).cell a = s.cell a := rfl

/-! ### withRun -/

@[simp] theorem State.withRun_regs (r : RunState) : (s.withRun r).regs = s.regs := rfl
@[simp] theorem State.withRun_pc (r : RunState) : (s.withRun r).pc = s.pc := rfl
@[simp] theorem State.withRun_fl (r : RunState) : (s.withRun r).fl = s.fl := rfl
@[simp] theorem State.withRun_run (r : RunState) : (s.withRun r).run = r := rfl
@[simp] theorem State.withRun_mem (r : RunState) : (s.withRun r).mem = s.mem := rfl
@[simp] theorem State.withRun_out (r : RunState) : (s.withRun r).out = s.out := rfl
@[simp] theorem State.withRun_diag (r : RunState) : (s.withRun r).diag = s.diag := rfl
@[simp] theorem State.withRun_reg (r : RunState) (j : Fin 8) : (s.withRun r).reg j = s.reg j := rfl
@[simp] theorem State.withRun_sp (r : RunState) : (s.withRun r).sp = s.sp := rfl
@[simp] theorem State.withRun_cell (r : RunState) (a : Nat) : (s.withRun r).cell a = s.cell a := rfl

/-! ### withMem -/

@[simp] theorem State.withMem_regs (m : Memory) : (s.withMem m).regs = s.regs := rfl
@[simp] theorem State.withMem_pc (m : Memory) : (s.withMem m).pc = s.pc := rfl
@[simp] theorem State.withMem_fl (m : Memory) : (s.withMem m).fl = s.fl := rfl
@[simp] theorem State.withMem_run (m : Memory) : (s.withMem m).run = s.run := rfl
@[simp] theorem State.withMem_mem (m : Memory) : (s.withMem m).mem = m := rfl
@[simp] theorem State.withMem_out (m : Memory) : (s.withMem m).out = s.out := rfl
@[simp] theorem State.withMem_diag (m : Memory) : (s.withMem m).diag = s.diag := rfl
@[simp] theorem State.withMem_reg (m : Memory) (j : Fin 8) : (s.withMem m).reg j = s.reg j := rfl
@[simp] theorem State.withMem_sp (m : Memory) : (s.withMem m).sp = s.sp := rfl
@[simp] theorem State.withMem_cell (m : Memory) (a : Nat) : (s.withMem m).cell a = Memory.read m a := rfl

/-! ### emit -/

@[simp] theorem State.emit_regs (v : Byte) : (s.emit v).regs = s.regs := rfl
@[simp] theorem State.emit_pc (v : Byte) : (s.emit v).pc = s.pc := rfl
@[simp] theorem State.emit_fl (v : Byte) : (s.emit v).fl = s.fl := rfl
@[simp] theorem State.emit_run (v : Byte) : (s.emit v).run = s.run := rfl
@[simp] theorem State.emit_mem (v : Byte) : (s.emit v).mem = s.mem := rfl
@[simp] theorem State.emit_out (v : Byte) : (s.emit v).out = s.out ++ [⟨v⟩] := rfl
@[simp] theorem State.emit_diag (v : Byte) : (s.emit v).diag = s.diag := rfl
@[simp] theorem State.emit_reg (v : Byte) (j : Fin 8) : (s.emit v).reg j = s.reg j := rfl
@[simp] theorem State.emit_sp (v : Byte) : (s.emit v).sp = s.sp := rfl
@[simp] theorem State.emit_cell (v : Byte) (a : Nat) : (s.emit v).cell a = s.cell a := rfl

/-! ### report -/

@[simp] theorem State.report_regs (a : Nat) (b : Byte) : (s.report a b).regs = s.regs := rfl
@[simp] theorem State.report_pc (a : Nat) (b : Byte) : (s.report a b).pc = s.pc := rfl
@[simp] theorem State.report_fl (a : Nat) (b : Byte) : (s.report a b).fl = s.fl := rfl
@[simp] theorem State.report_run (a : Nat) (b : Byte) : (s.report a b).run = s.run := rfl
@[simp] theorem State.report_mem (a : Nat) (b : Byte) : (s.report a b).mem = s.mem := rfl
@[simp] theorem State.report_out (a : Nat) (b : Byte) : (s.report a b).out = s.out := rfl
@[simp] theorem State.report_diag (a : Nat) (b : Byte) : (s.report a b).diag = s.diag ++ [⟨a, b⟩] := rfl
@[simp] theorem State.report_reg (a : Nat) (b : Byte) (j : Fin 8) : (s.report a b).reg j = s.reg j := rfl
@[simp] theorem State.report_sp (a : Nat) (b : Byte) : (s.report a b).sp = s.sp := rfl
@[simp] theorem State.report_cell (a : Nat) (b : Byte) (c : Nat) : (s.report a b).cell c = s.cell c := rfl

/-! ### advance -/

@[simp] theorem State.advance_regs (n : Nat) : (s.advance n).regs = s.regs := rfl
@[simp] theorem State.advance_pc (n : Nat) : (s.advance n).pc = s.pc + n := rfl
@[simp] theorem State.advance_fl (n : Nat) : (s.advance n).fl = s.fl := rfl
@[simp] theorem State.advance_run (n : Nat) : (s.advance n).run = s.run := rfl
@[simp] theorem State.advance_mem (n : Nat) : (s.advance n).mem = s.mem := rfl
@[simp] theorem State.advance_out (n : Nat) : (s.advance n).out = s.out := rfl
@[simp] theorem State.advance_diag (n : Nat) : (s.advance n).diag = s.diag := rfl
@[simp] theorem State.advance_reg (n : Nat) (j : Fin 8) : (s.advance n).reg j = s.reg j := rfl
@[simp] theorem State.advance_sp (n : Nat) : (s.advance n).sp = s.sp := rfl
@[simp] theorem State.advance_cell (n : Nat) (a : Nat) : (s.advance n).cell a = s.cell a := rfl

/-! ### jumpTo -/

@[simp] theorem State.jumpTo_regs (target : Byte) : (s.jumpTo target).regs = s.regs := rfl
@[simp] theorem State.jumpTo_pc (target : Byte) : (s.jumpTo target).pc = target.toNat := rfl
@[simp] theorem State.jumpTo_fl (target : Byte) : (s.jumpTo target).fl = s.fl := rfl
@[simp] theorem State.jumpTo_run (target : Byte) : (s.jumpTo target).run = s.run := rfl
@[simp] theorem State.jumpTo_mem (target : Byte) : (s.jumpTo target).mem = s.mem := rfl
@[simp] theorem State.jumpTo_out (target : Byte) : (s.jumpTo target).out = s.out := rfl
@[simp] theorem State.jumpTo_diag (target : Byte) : (s.jumpTo target).diag = s.diag := rfl
@[simp] theorem State.jumpTo_reg (target : Byte) (j : Fin 8) : (s.jumpTo target).reg j = s.reg j := rfl
@[simp] theorem State.jumpTo_sp (target : Byte) : (s.jumpTo target).sp = s.sp := rfl
@[simp] theorem State.jumpTo_cell (target : Byte) (a : Nat) : (s.jumpTo target).cell a = s.cell a := rfl

/-! ### decSp -/

@[simp] theorem State.decSp_pc : s.decSp.pc = s.pc := rfl
@[simp] theorem State.decSp_fl : s.decSp.fl = s.fl := rfl
@[simp] theorem State.decSp_run : s.decSp.run = s.run := rfl
@[simp] theorem State.decSp_mem : s.decSp.mem = s.mem := rfl
@[simp] theorem State.decSp_out : s.decSp.out = s.out := rfl
@[simp] theorem State.decSp_diag : s.decSp.diag = s.diag := rfl

@[simp] theorem State.decSp_reg (j : Fin 8) :
    s.decSp.reg j = if j = spIndex then s.sp - 1#8 else s.reg j :=
  State.withReg_reg s spIndex j (s.sp - 1#8)

@[simp] theorem State.decSp_sp : s.decSp.sp = s.sp - 1#8 := by
  simp [State.sp]

@[simp] theorem State.decSp_cell (a : Nat) : s.decSp.cell a = s.cell a := rfl

/-! ### incSp -/

@[simp] theorem State.incSp_pc : s.incSp.pc = s.pc := rfl
@[simp] theorem State.incSp_fl : s.incSp.fl = s.fl := rfl
@[simp] theorem State.incSp_run : s.incSp.run = s.run := rfl
@[simp] theorem State.incSp_mem : s.incSp.mem = s.mem := rfl
@[simp] theorem State.incSp_out : s.incSp.out = s.out := rfl
@[simp] theorem State.incSp_diag : s.incSp.diag = s.diag := rfl

@[simp] theorem State.incSp_reg (j : Fin 8) :
    s.incSp.reg j = if j = spIndex then s.sp + 1#8 else s.reg j :=
  State.withReg_reg s spIndex j (s.sp + 1#8)

@[simp] theorem State.incSp_sp : s.incSp.sp = s.sp + 1#8 := by
  simp [State.sp]

@[simp] theorem State.incSp_cell (a : Nat) : s.incSp.cell a = s.cell a := rfl

/-! ### raiseFault -/

@[simp] theorem raiseFault_regs (k : FaultKind) : (raiseFault k s).regs = s.regs := rfl
@[simp] theorem raiseFault_pc (k : FaultKind) : (raiseFault k s).pc = s.pc := rfl
@[simp] theorem raiseFault_fl (k : FaultKind) : (raiseFault k s).fl = s.fl := rfl
@[simp] theorem raiseFault_run (k : FaultKind) : (raiseFault k s).run = .faulted k := rfl
@[simp] theorem raiseFault_mem (k : FaultKind) : (raiseFault k s).mem = s.mem := rfl
@[simp] theorem raiseFault_out (k : FaultKind) : (raiseFault k s).out = s.out := rfl
@[simp] theorem raiseFault_diag (k : FaultKind) : (raiseFault k s).diag = s.diag := rfl
@[simp] theorem raiseFault_sp (k : FaultKind) : (raiseFault k s).sp = s.sp := rfl
@[simp] theorem raiseFault_reg (k : FaultKind) (j : Fin 8) : (raiseFault k s).reg j = s.reg j := rfl
@[simp] theorem raiseFault_cell (k : FaultKind) (a : Nat) : (raiseFault k s).cell a = s.cell a := rfl

/-- R7 read as a register is `sp`: the one spelling of the stack pointer. -/
@[simp] theorem State.reg_spIndex : s.reg spIndex = s.sp := rfl

/-- Two states with the same fields are equal. -/
theorem State.ext_fields {s t : State} (hregs : ∀ i, t.reg i = s.reg i) (hpc : t.pc = s.pc) (hfl : t.fl = s.fl)
    (hrun : t.run = s.run) (hmem : t.mem = s.mem) (hout : t.out = s.out) (hdiag : t.diag = s.diag) : t = s := by
  have hr : t.regs = s.regs := Vector.ext fun i hi => hregs ⟨i, hi⟩
  cases s
  cases t
  simp_all

end Sys2Proof.Machine
end

