-- ==== Sys2Proof/Laws/Memory.lean ====
section
/-! SUPPORT. Memory: a read after a write, the canonical form, and what the read and write contracts
can do (20_memory.md R31, R32). -/

namespace Sys2Proof.Machine

/-! ### The list of cells -/

@[simp] theorem Memory.read_nil (a : Nat) : Memory.read [] a = Memory.unlisted := rfl

theorem Memory.read_erase (m : Memory) (a x : Nat) :
    Memory.read (Memory.erase m a) x = if x = a then Memory.unlisted else Memory.read m x := by
  induction m with
  | nil => simp [Memory.erase]
  | cons c m ih =>
    obtain ⟨b, w⟩ := c
    by_cases hba : b = a
    · subst hba
      by_cases hx : x = b
      · simpa [Memory.erase, hx] using ih
      · simp [Memory.erase, Memory.read, ih, hx, Ne.symm hx]
    · by_cases hbx : b = x
      · subst hbx
        simp [Memory.erase, Memory.read, hba]
      · simp [Memory.erase, Memory.read, hba, hbx, ih]

theorem Memory.read_insert (m : Memory) (a x : Nat) (v : Byte) (fresh : ∀ w, (a, w) ∉ m) :
    Memory.read (Memory.insert m a v) x = if x = a then v else Memory.read m x := by
  induction m with
  | nil => simp [Memory.insert, Memory.read, eq_comm (a := a)]
  | cons c m ih =>
    obtain ⟨b, w⟩ := c
    have hba : b ≠ a := fun h => fresh w (by simp [h])
    have ih := ih fun w hw => fresh w (by simp [hw])
    by_cases hlt : a < b
    · simp [Memory.insert, hlt, Memory.read, eq_comm (a := a)]
    · by_cases hbx : b = x
      · subst hbx
        simp [Memory.insert, hlt, Memory.read, hba]
      · simp [Memory.insert, hlt, Memory.read, hbx, ih]

theorem Memory.not_mem_erase (m : Memory) (a : Nat) (w : Byte) : (a, w) ∉ Memory.erase m a := by
  induction m with
  | nil => simp [Memory.erase]
  | cons c m ih =>
    obtain ⟨b, u⟩ := c
    by_cases hba : b = a
    · simpa [Memory.erase, hba] using ih
    · have hab : a ≠ b := fun h => hba h.symm
      simp [Memory.erase, hba, hab, ih]

/-- Read after write, on any list of cells. -/
@[simp] theorem Memory.read_write (m : Memory) (a x : Nat) (v : Byte) :
    Memory.read (Memory.write m a v) x = if x = a then v else Memory.read m x := by
  by_cases hv : v = Memory.unlisted
  · simp [Memory.write, hv, Memory.read_erase]
  · have h := Memory.read_insert (Memory.erase m a) a x v (Memory.not_mem_erase m a)
    rw [Memory.read_erase] at h
    by_cases hx : x = a <;> simp_all [Memory.write]

/-! ### The canonical form -/

theorem Memory.risesFrom_mono (m : Memory) {lo hi : Nat} (hle : lo ≤ hi) (h : Memory.risesFrom hi m = true) :
    Memory.risesFrom lo m = true := by
  cases m with
  | nil => rfl
  | cons c m =>
    simp only [Memory.risesFrom, Bool.and_eq_true, decide_eq_true_eq] at h ⊢
    exact ⟨hle.trans h.1, h.2⟩

theorem Memory.risesFrom_erase (m : Memory) (a lo : Nat) (h : Memory.risesFrom lo m = true) :
    Memory.risesFrom lo (Memory.erase m a) = true := by
  induction m generalizing lo with
  | nil => rfl
  | cons c m ih =>
    obtain ⟨b, w⟩ := c
    simp only [Memory.risesFrom, Bool.and_eq_true, decide_eq_true_eq] at h
    by_cases hba : b = a
    · simpa [Memory.erase, hba] using Memory.risesFrom_mono _ (by omega) (ih _ h.2)
    · simp [Memory.erase, hba, Memory.risesFrom, h.1, ih _ h.2]

theorem Memory.risesFrom_insert (m : Memory) (a lo : Nat) (v : Byte) (h : Memory.risesFrom lo m = true)
    (fresh : ∀ w, (a, w) ∉ m) (hlo : lo ≤ a) : Memory.risesFrom lo (Memory.insert m a v) = true := by
  induction m generalizing lo with
  | nil => simp [Memory.insert, Memory.risesFrom, hlo]
  | cons c m ih =>
    obtain ⟨b, w⟩ := c
    simp only [Memory.risesFrom, Bool.and_eq_true, decide_eq_true_eq] at h
    have hba : b ≠ a := fun h => fresh w (by simp [h])
    by_cases hlt : a < b
    · simp only [Memory.insert, hlt, if_true, Memory.risesFrom, Bool.and_eq_true, decide_eq_true_eq]
      exact ⟨hlo, hlt, h.2⟩
    · have := ih (b + 1) h.2 (fun w hw => fresh w (by simp [hw])) (by omega)
      simp [Memory.insert, hlt, Memory.risesFrom, h.1, this]

theorem Memory.mem_erase {m : Memory} {a : Nat} {c : Host.Cell} (h : c ∈ Memory.erase m a) : c ∈ m := by
  induction m with
  | nil => simp [Memory.erase] at h
  | cons d m ih =>
    obtain ⟨b, w⟩ := d
    by_cases hba : b = a
    · exact List.mem_cons_of_mem _ (ih (by simpa [Memory.erase, hba] using h))
    · rcases List.mem_cons.mp (by simpa only [Memory.erase, hba, if_false] using h) with h | h
      · simp [h]
      · exact List.mem_cons_of_mem _ (ih h)

theorem Memory.mem_insert {m : Memory} {a : Nat} {v : Byte} {c : Host.Cell} (h : c ∈ Memory.insert m a v) :
    c = (a, v) ∨ c ∈ m := by
  induction m with
  | nil => simpa [Memory.insert] using h
  | cons d m ih =>
    obtain ⟨b, w⟩ := d
    by_cases hlt : a < b
    · simpa [Memory.insert, hlt] using h
    · rcases List.mem_cons.mp (by simpa only [Memory.insert, hlt, if_false] using h) with h | h
      · simp [h]
      · rcases ih h with h | h <;> simp [h]

/-- The canonical form, as a statement about the cells. -/
theorem Memory.wf_iff (m : Memory) : m.wf = true ↔
    Memory.risesFrom 0 m = true ∧ ∀ c ∈ m, c.1 < Config.memSize ∧ c.2 ≠ Memory.unlisted := by
  simp [Memory.wf]

/-- Every write inside the memory keeps the canonical form. -/
theorem Memory.write_wf {m : Memory} {a : Nat} (v : Byte) (h : m.wf = true) (ha : a < Config.memSize) :
    (Memory.write m a v).wf = true := by
  rw [Memory.wf_iff] at h ⊢
  have hr := Memory.risesFrom_erase m a 0 h.1
  by_cases hv : v = Memory.unlisted
  · rw [Memory.write, if_pos hv]
    exact ⟨hr, fun c hc => h.2 c (Memory.mem_erase hc)⟩
  · rw [Memory.write, if_neg hv]
    refine ⟨Memory.risesFrom_insert _ a 0 v hr (Memory.not_mem_erase m a) (Nat.zero_le a), fun c hc => ?_⟩
    rcases Memory.mem_insert hc with rfl | hc
    · exact ⟨ha, hv⟩
    · exact h.2 c (Memory.mem_erase hc)

theorem Memory.nil_wf : Memory.wf [] = true := rfl

/-- A cell below every listed address reads as unlisted. -/
theorem Memory.read_below (m : Memory) {lo x : Nat} (h : Memory.risesFrom lo m = true) (hx : x < lo) :
    Memory.read m x = Memory.unlisted := by
  induction m generalizing lo with
  | nil => rfl
  | cons c m ih =>
    obtain ⟨b, w⟩ := c
    simp only [Memory.risesFrom, Bool.and_eq_true, decide_eq_true_eq] at h
    have hbx : b ≠ x := by omega
    simpa [Memory.read, hbx] using ih h.2 (by omega)

/-- Canonical memories with the same contents are equal data. -/
theorem Memory.ext_of_read {m n : Memory} (hm : m.wf = true) (hn : n.wf = true)
    (h : ∀ a, Memory.read m a = Memory.read n a) : m = n := by
  rw [Memory.wf_iff] at hm hn
  obtain ⟨hm, hmz⟩ := hm
  obtain ⟨hn, hnz⟩ := hn
  generalize hlo : 0 = lo at hm hn
  clear hlo
  induction m generalizing n lo with
  | nil =>
    cases n with
    | nil => rfl
    | cons d n =>
      have := h d.1
      simp [Memory.read] at this
      exact absurd this.symm (hnz d (by simp)).2
  | cons c m ih =>
    obtain ⟨b, w⟩ := c
    cases n with
    | nil =>
      have := h b
      simp [Memory.read] at this
      exact absurd this (hmz (b, w) (by simp)).2
    | cons d n =>
      obtain ⟨e, u⟩ := d
      simp only [Memory.risesFrom, Bool.and_eq_true, decide_eq_true_eq] at hm hn
      have hw := (hmz (b, w) (by simp)).2
      have hu := (hnz (e, u) (by simp)).2
      have hbe : b = e := by
        rcases Nat.lt_trichotomy b e with hlt | heq | hgt
        · have h1 := h b
          have h2 : e ≠ b := by omega
          simp [Memory.read, h2, Memory.read_below n hn.2 (by omega : b < e + 1)] at h1
          exact absurd h1 hw
        · exact heq
        · have h1 := h e
          have h2 : b ≠ e := by omega
          simp [Memory.read, h2, Memory.read_below m hm.2 (by omega : e < b + 1)] at h1
          exact absurd h1.symm hu
      subst hbe
      have hwu : w = u := by simpa [Memory.read] using h b
      subst hwu
      refine congrArg ((b, w) :: ·) (ih (n := n) (fun a => ?_) (fun c hc => hmz c (by simp [hc])) (fun c hc => hnz c (by simp [hc]))
        (b + 1) hm.2 hn.2)
      by_cases hab : b = a
      · subst hab
        rw [Memory.read_below m hm.2 (by omega), Memory.read_below n hn.2 (by omega)]
      · simpa [Memory.read, hab] using h a

/-! ### The read and write contracts -/

theorem memRead_inside {addr : Nat} (s : State) (h : addr < 256) : memRead addr s = .ok (s.cell addr) :=
  if_pos h

theorem memRead_outside {addr : Nat} (s : State) (h : 256 ≤ addr) : memRead addr s = .error (.outOfBounds addr) :=
  if_neg (Nat.not_lt.mpr h)

theorem memWrite_inside {addr : Nat} (v : Byte) (s : State) (h : addr < 256) :
    memWrite addr v s = .ok (s.withMem (Memory.write s.mem addr v)) :=
  if_pos h

theorem memWrite_outside {addr : Nat} (v : Byte) (s : State) (h : 256 ≤ addr) :
    memWrite addr v s = .error (.outOfBounds addr) :=
  if_neg (Nat.not_lt.mpr h)

/-- Everything a write that succeeds does: one cell changes and nothing else. -/
theorem memWrite_ok {addr : Nat} {v : Byte} {s t : State} (h : memWrite addr v s = .ok t) :
    addr < 256 ∧ t = s.withMem (Memory.write s.mem addr v) := by
  by_cases ha : addr < 256
  · rw [memWrite_inside v s ha, Except.ok.injEq] at h
    exact ⟨ha, h.symm⟩
  · rw [memWrite_outside v s (by omega)] at h
    cases h

/-- A stack read cannot fault (20_memory.md R44). -/
@[simp] theorem loadTop_eq (s : State) : loadTop s = .ok (s.cell s.sp.toNat) :=
  memRead_inside s s.sp.isLt

/-- A stack write cannot fault (20_memory.md R44). -/
@[simp] theorem storeTop_eq (v : Byte) (s : State) :
    storeTop v s = .ok (s.withMem (Memory.write s.mem s.sp.toNat v)) :=
  memWrite_inside v s s.sp.isLt

/-- The address PUSH and CALL store to, computed. -/
theorem State.pushAddr_eq (s : State) : s.pushAddr = (s.sp - 1#8).toNat := by
  simp [State.pushAddr]

end Sys2Proof.Machine
end

