-- ==== Sys2Proof/Laws/Operands.lean ====
section
/-! SUPPORT. What a register operand can do: a valid index selects its register, any other raises
(10_state.md R12, 30_encoding.md R55). -/

namespace Sys2Proof.Machine

@[simp] theorem regByte_toNat (i : Fin 8) : (regByte i).toNat = i.val := by
  simp [regByte]
  omega

/-- A register number is not above 7. -/
@[simp] theorem register_not_above (i : Fin 8) : (7 < i.val) = False := by
  simp only [eq_iff_iff, iff_false]
  omega

@[simp] theorem regIndex_regByte (i : Fin 8) : regIndex (regByte i) = .ok i := by
  simp [regIndex]

theorem regIndex_invalid {a : Byte} (h : 7 < a.toNat) : regIndex a = .error (.invalidRegister a) :=
  dif_neg (by omega)

theorem regByte_of_valid {a : Byte} (h : a.toNat ≤ 7) : ∃ i : Fin 8, a = regByte i :=
  ⟨⟨a.toNat, by omega⟩, BitVec.eq_of_toNat_eq (by simp)⟩

/-- Every operand byte is the byte of one register, or an invalid index. -/
theorem operand_cases (a : Byte) : (∃ i : Fin 8, a = regByte i) ∨ 7 < a.toNat := by
  rcases Nat.lt_or_ge 7 a.toNat with h | h
  · exact .inr h
  · exact .inl (regByte_of_valid h)

@[simp] theorem regByte_inj {i j : Fin 8} : regByte i = regByte j ↔ i = j := by
  constructor
  · intro h
    have := congrArg BitVec.toNat h
    simpa [Fin.ext_iff] using this
  · rintro rfl
    rfl

@[simp] theorem readReg_regByte (i : Fin 8) (s : State) : readReg (regByte i) s = .ok (s.reg i) := by
  simp [readReg, bind, Except.bind, pure, Except.pure]

@[simp] theorem writeReg_regByte (i : Fin 8) (v : Byte) (s : State) :
    writeReg (regByte i) v s = .ok (s.withReg i v) := by
  simp [writeReg, bind, Except.bind, pure, Except.pure]

theorem readReg_invalid {a : Byte} (s : State) (h : 7 < a.toNat) :
    readReg a s = .error (.invalidRegister a) := by
  simp [readReg, regIndex_invalid h, bind, Except.bind]

theorem writeReg_invalid {a : Byte} (v : Byte) (s : State) (h : 7 < a.toNat) :
    writeReg a v s = .error (.invalidRegister a) := by
  simp [writeReg, regIndex_invalid h, bind, Except.bind]

end Sys2Proof.Machine
end

