-- ==== Sys2Proof/Laws/Meanings.lean ====
section
/-! SUPPORT. What each shared operation can do, and each meaning as one equation for a valid operand
and one for an invalid operand, so that proofs about `exec` need not unfold a meaning. -/

namespace Sys2Proof.Machine

variable (s : State)

@[simp] theorem settle_ok (t : State) : settle s (.ok t) = .next t := rfl

@[simp] theorem settle_error (k : FaultKind) : settle s (.error k) = .next (raiseFault k s) := rfl

/-- An instruction always answers a next state: the state of its rule, or the fault. -/
theorem settle_cases (r : Except FaultKind State) :
    (∃ t, r = .ok t ∧ settle s r = .next t) ∨ (∃ k, r = .error k ∧ settle s r = .next (raiseFault k s)) := by
  cases r with
  | ok t => exact .inl ⟨t, rfl, rfl⟩
  | error k => exact .inr ⟨k, rfl, rfl⟩

/-! ### Shared operations -/

section
variable (d r : Fin 8)

theorem aluApply_add : aluApply .add (regByte d) (regByte r) s = .ok (s.withReg d (s.reg d + s.reg r)) := by
  simp [aluApply, bind, Except.bind]

theorem aluApply_multiply : aluApply .multiply (regByte d) (regByte r) s = .ok (s.withReg d (s.reg d * s.reg r)) := by
  simp [aluApply, bind, Except.bind]

theorem aluApply_compare :
    aluApply .compare (regByte d) (regByte r) s = .ok (s.withFl (compareFlags (s.reg d) (s.reg r))) := by
  simp [aluApply, bind, Except.bind, pure, Except.pure]

theorem aluApply_other (n : Nat) : aluApply (.other n) (regByte d) (regByte r) s = .error .unsupportedOperation := by
  simp [aluApply, bind, Except.bind, throw, throwThe, MonadExceptOf.throw]

end

theorem aluApply_invalid_dest (op : AluOp) {a : Byte} (b : Byte) (h : 7 < a.toNat) :
    aluApply op a b s = .error (.invalidRegister a) := by
  simp [aluApply, readReg_invalid s h, bind, Except.bind]

theorem aluApply_invalid_src (op : AluOp) (d : Fin 8) {b : Byte} (h : 7 < b.toNat) :
    aluApply op (regByte d) b s = .error (.invalidRegister b) := by
  simp [aluApply, readReg_invalid s h, bind, Except.bind]

theorem jumpReg_valid (a : Fin 8) : jumpReg (regByte a) s = .ok (s.jumpTo (s.reg a)) := by
  simp [jumpReg, bind, Except.bind, pure, Except.pure]

theorem jumpReg_invalid {a : Byte} (h : 7 < a.toNat) : jumpReg a s = .error (.invalidRegister a) := by
  simp [jumpReg, readReg_invalid s h, bind, Except.bind]

@[simp] theorem Flags.isEqual_iff (f : Flags) : f.isEqual = true ↔ f = .equal := by
  cases f <;> decide

@[simp] theorem Flags.isNotEqual_iff (f : Flags) : f.isNotEqual = true ↔ f ≠ .equal := by
  cases f <;> decide

theorem compareFlags_less_iff (va vb : Byte) : compareFlags va vb = .less ↔ va.toNat < vb.toNat := by
  unfold compareFlags
  split
  · simpa
  · split <;> simp <;> omega

theorem compareFlags_greater_iff (va vb : Byte) : compareFlags va vb = .greater ↔ vb.toNat < va.toNat := by
  unfold compareFlags
  split
  · simp; omega
  · split <;> simp <;> omega

theorem compareFlags_equal_iff (va vb : Byte) : compareFlags va vb = .equal ↔ va = vb := by
  rw [← BitVec.toNat_inj]
  unfold compareFlags
  split
  · simp; omega
  · split <;> simp <;> omega

theorem compareFlags_ne_none (va vb : Byte) : compareFlags va vb ≠ .none := by
  unfold compareFlags
  split
  · simp
  · split <;> simp

theorem returnAddress_inside (h : s.pc ≤ 253) : returnAddress s = .ok (BitVec.ofNat 8 (s.pc + 2)) :=
  if_pos (show s.pc + 2 < 256 by omega)

theorem returnAddress_outside (h : 254 ≤ s.pc) : returnAddress s = .error (.outOfBounds (s.pc + 2)) :=
  if_neg (show ¬ s.pc + 2 < 256 by omega)

/-! ### The meanings -/

theorem exec_ldi (a : Fin 8) (imm : Byte) :
    exec (.ldi (regByte a) imm) s = .next ((s.withReg a imm).advance 3) := by
  simp [exec, execLdi, bind, Except.bind, pure, Except.pure]

theorem exec_ldi_invalid {a : Byte} (imm : Byte) (h : 7 < a.toNat) :
    exec (.ldi a imm) s = .next (raiseFault (.invalidRegister a) s) := by
  simp [exec, execLdi, writeReg_invalid imm s h, bind, Except.bind]

theorem exec_add (a b : Fin 8) :
    exec (.add (regByte a) (regByte b)) s = .next ((s.withReg a (s.reg a + s.reg b)).advance 3) := by
  simp [exec, execAdd, aluApply_add, bind, Except.bind, pure, Except.pure]

theorem exec_mul (a b : Fin 8) :
    exec (.mul (regByte a) (regByte b)) s = .next ((s.withReg a (s.reg a * s.reg b)).advance 3) := by
  simp [exec, execMul, aluApply_multiply, bind, Except.bind, pure, Except.pure]

theorem exec_cmp (a b : Fin 8) :
    exec (.cmp (regByte a) (regByte b)) s = .next ((s.withFl (compareFlags (s.reg a) (s.reg b))).advance 3) := by
  simp [exec, execCmp, aluApply_compare, bind, Except.bind, pure, Except.pure]

/-- ADD, MUL and CMP with an invalid first index. -/
theorem exec_alu_invalid_dest {a : Byte} (b : Byte) (h : 7 < a.toNat) (i : Instr)
    (hi : i = .add a b ∨ i = .mul a b ∨ i = .cmp a b) : exec i s = .next (raiseFault (.invalidRegister a) s) := by
  rcases hi with rfl | rfl | rfl <;>
    simp [exec, execAdd, execMul, execCmp, aluApply_invalid_dest s _ b h, bind, Except.bind]

/-- ADD, MUL and CMP with a valid first and an invalid second index. -/
theorem exec_alu_invalid_src (a : Fin 8) {b : Byte} (h : 7 < b.toNat) (i : Instr)
    (hi : i = .add (regByte a) b ∨ i = .mul (regByte a) b ∨ i = .cmp (regByte a) b) :
    exec i s = .next (raiseFault (.invalidRegister b) s) := by
  rcases hi with rfl | rfl | rfl <;>
    simp [exec, execAdd, execMul, execCmp, aluApply_invalid_src s _ a h, bind, Except.bind]

theorem exec_jeq_taken (a : Fin 8) (hf : s.fl = .equal) :
    exec (.jeq (regByte a)) s = .next (s.jumpTo (s.reg a)) := by
  simp [exec, execJeq, jumpRegIf, hf, jumpReg_valid]

theorem exec_jeq_not_taken (a : Byte) (hf : s.fl ≠ .equal) : exec (.jeq a) s = .next (s.advance 2) := by
  simp [exec, execJeq, jumpRegIf, hf, pure, Except.pure]

theorem exec_jeq_invalid {a : Byte} (h : 7 < a.toNat) (hf : s.fl = .equal) :
    exec (.jeq a) s = .next (raiseFault (.invalidRegister a) s) := by
  simp [exec, execJeq, jumpRegIf, hf, jumpReg_invalid s h]

theorem exec_jne_taken (a : Fin 8) (hf : s.fl ≠ .equal) :
    exec (.jne (regByte a)) s = .next (s.jumpTo (s.reg a)) := by
  simp [exec, execJne, jumpRegIf, hf, jumpReg_valid]

theorem exec_jne_not_taken (a : Byte) (hf : s.fl = .equal) : exec (.jne a) s = .next (s.advance 2) := by
  simp [exec, execJne, jumpRegIf, hf, pure, Except.pure]

theorem exec_jne_invalid {a : Byte} (h : 7 < a.toNat) (hf : s.fl ≠ .equal) :
    exec (.jne a) s = .next (raiseFault (.invalidRegister a) s) := by
  simp [exec, execJne, jumpRegIf, hf, jumpReg_invalid s h]

theorem exec_jmp (a : Fin 8) : exec (.jmp (regByte a)) s = .next (s.jumpTo (s.reg a)) := by
  simp [exec, execJmp, jumpReg_valid]

theorem exec_jmp_invalid {a : Byte} (h : 7 < a.toNat) :
    exec (.jmp a) s = .next (raiseFault (.invalidRegister a) s) := by
  simp [exec, execJmp, jumpReg_invalid s h]

theorem exec_push (a : Fin 8) : exec (.push (regByte a)) s =
    .next ((s.decSp.withMem (Memory.write s.mem s.pushAddr (s.decSp.reg a))).advance 2) := by
  simp [exec, execPush, State.pushAddr, bind, Except.bind, pure, Except.pure]

theorem exec_push_invalid {a : Byte} (h : 7 < a.toNat) :
    exec (.push a) s = .next (raiseFault (.invalidRegister a) s) := by
  simp [exec, execPush, regIndex_invalid h, bind, Except.bind]

theorem exec_pop (a : Fin 8) : exec (.pop (regByte a)) s =
    .next (((s.withReg a (s.cell s.sp.toNat)).incSp).advance 2) := by
  simp [exec, execPop, bind, Except.bind, pure, Except.pure]

theorem exec_pop_invalid {a : Byte} (h : 7 < a.toNat) :
    exec (.pop a) s = .next (raiseFault (.invalidRegister a) s) := by
  simp [exec, execPop, regIndex_invalid h, bind, Except.bind]

theorem exec_call (a : Fin 8) (hpc : s.pc ≤ 253) : exec (.call (regByte a)) s =
    .next ((s.decSp.withMem (Memory.write s.mem s.pushAddr (BitVec.ofNat 8 (s.pc + 2)))).jumpTo (s.decSp.reg a)) := by
  simp [exec, execCall, returnAddress_inside s hpc, State.pushAddr, bind, Except.bind, pure, Except.pure]

theorem exec_call_invalid {a : Byte} (h : 7 < a.toNat) :
    exec (.call a) s = .next (raiseFault (.invalidRegister a) s) := by
  simp [exec, execCall, regIndex_invalid h, bind, Except.bind]

theorem exec_call_no_return_address (a : Fin 8) (hpc : 254 ≤ s.pc) :
    exec (.call (regByte a)) s = .next (raiseFault (.outOfBounds (s.pc + 2)) s) := by
  simp [exec, execCall, returnAddress_outside s hpc, bind, Except.bind]

theorem exec_ret : exec .ret s = .next (s.incSp.jumpTo (s.cell s.sp.toNat)) := by
  simp [exec, execRet, bind, Except.bind, pure, Except.pure]

theorem exec_prn (a : Fin 8) : exec (.prn (regByte a)) s = .next ((s.emit (s.reg a)).advance 2) := by
  simp [exec, execPrn, bind, Except.bind, pure, Except.pure]

theorem exec_prn_invalid {a : Byte} (h : 7 < a.toNat) :
    exec (.prn a) s = .next (raiseFault (.invalidRegister a) s) := by
  simp [exec, execPrn, readReg_invalid s h, bind, Except.bind]

theorem exec_hlt : exec .hlt s = .next ((s.withRun .halted).advance 1) := rfl

theorem exec_unknown (op : Byte) : exec (.unknown op) s = .next ((s.report s.pc op).advance 1) := rfl

/-- Every instruction answers a next state, in every state. -/
theorem exec_answers (i : Instr) : ∃ t, exec i s = .next t := by
  have h (r) : ∃ t, settle s r = .next t := by
    rcases settle_cases s r with ⟨t, -, h⟩ | ⟨k, -, h⟩
    · exact ⟨t, h⟩
    · exact ⟨_, h⟩
  cases i <;> first | exact h _ | exact ⟨_, rfl⟩

/-! ### The step -/

/-- Everything a fetch can answer: the well-formed instruction whose bytes lie at the program counter,
wholly inside the memory, or OutOfBounds at the first byte of it that lies outside. -/
theorem fetch_cases :
    (∃ i, fetch s = .ok i ∧ i.wf = true ∧ s.pc + i.length ≤ 256 ∧ i.mnemonic = lookup (s.cell s.pc) ∧
      ∀ k b, (encode i)[k]? = some b → s.cell (s.pc + k) = b) ∨
    (fetch s = .error (.outOfBounds s.pc) ∧ 256 ≤ s.pc) ∨
    (fetch s = .error (.outOfBounds 256) ∧ s.pc ≤ 255 ∧ 256 ≤ s.pc + (lookup (s.cell s.pc)).operandCount) := by
  have hle := (lookup (s.cell s.pc)).operandCount_le
  by_cases hpc : 256 ≤ s.pc
  · exact .inr (.inl ⟨decodeWith_no_opcode (memRead_outside s hpc), hpc⟩)
  have h0 : (fun k => memRead (s.pc + k) s) 0 = .ok (s.cell s.pc) := memRead_inside s (by omega)
  by_cases hend : 256 ≤ s.pc + (lookup (s.cell s.pc)).operandCount
  · refine .inr (.inr ⟨?_, by omega, hend⟩)
    by_cases hp : s.pc = 255
    · exact decodeWith_no_first h0 (by omega) (by simp only [hp]; exact memRead_outside s (by omega))
    · have hp : s.pc = 254 := by omega
      exact decodeWith_no_second h0 (by omega) (memRead_inside s (addr := s.pc + 1) (by omega))
        (by simp only [hp]; exact memRead_outside s (by omega))
  · left
    have fetched (opA opB : Byte) (hA : 1 ≤ (lookup (s.cell s.pc)).operandCount → opA = s.cell (s.pc + 1))
        (hB : (lookup (s.cell s.pc)).operandCount = 2 → opB = s.cell (s.pc + 2)) (k : Nat) (b : Byte)
        (hk : (encode (assemble (lookup (s.cell s.pc)) (s.cell s.pc) opA opB))[k]? = some b) :
        s.cell (s.pc + k) = b := by
      rw [encode_assemble] at hk
      rcases k with _ | _ | _ | k
      · simpa using hk
      · simp [List.getElem?_take] at hk
        rw [← hA (by omega)]
        exact hk.2
      · simp [List.getElem?_take] at hk
        rw [← hB (by omega)]
        exact hk.2
      · simp at hk
    have fits (opA opB : Byte) :
        s.pc + (assemble (lookup (s.cell s.pc)) (s.cell s.pc) opA opB).length ≤ 256 := by
      simp only [Instr.length, assemble_mnemonic]
      omega
    rcases hn : (lookup (s.cell s.pc)).operandCount with _ | _ | _ | n
    · exact ⟨_, decodeWith_none h0 hn, assemble_wf _ _ _, fits _ _, assemble_mnemonic _ _ _ _,
        fetched _ _ (by omega) (by omega)⟩
    · exact ⟨_, decodeWith_one h0 hn (memRead_inside s (addr := s.pc + 1) (by omega)), assemble_wf _ _ _, fits _ _,
        assemble_mnemonic _ _ _ _, fetched _ _ (fun _ => rfl) (by omega)⟩
    · exact ⟨_, decodeWith_two h0 hn (memRead_inside s (addr := s.pc + 1) (by omega))
        (memRead_inside s (addr := s.pc + 2) (by omega)), assemble_wf _ _ _, fits _ _,
        assemble_mnemonic _ _ _ _, fetched _ _ (fun _ => rfl) (fun _ => rfl)⟩
    · omega

theorem step_fetched {i : Instr} (hr : s.run = .running) (hf : fetch s = .ok i) : step s = exec i s := by
  simp [step, hr, hf]

theorem step_fetch_fault {k : FaultKind} (hr : s.run = .running) (hf : fetch s = .error k) :
    step s = .next (raiseFault k s) := by
  simp [step, hr, hf]

/-- Everything a step that answers a next state can be: the meaning of the fetched instruction, or a
fault of the fetch. -/
theorem step_cases {t : State} (h : step s = .next t) : s.run = .running ∧
    ((∃ i, fetch s = .ok i ∧ exec i s = .next t) ∨ ∃ k, fetch s = .error k ∧ t = raiseFault k s) := by
  cases hr : s.run with
  | running =>
    cases hf : fetch s with
    | ok i => exact ⟨rfl, .inl ⟨i, rfl, by rwa [step_fetched s hr hf] at h⟩⟩
    | error k =>
      rw [step_fetch_fault s hr hf, Host.Outcome.next.injEq] at h
      exact ⟨rfl, .inr ⟨k, rfl, h.symm⟩⟩
  | halted => simp [step, hr] at h
  | faulted k => simp [step, hr] at h

end Sys2Proof.Machine
end

