-- ==== Sys2Proof/Laws/ExecCases.lean ====
section
/-! SUPPORT. Once and for all, everything an instruction can do: one case per instruction that runs, and
two for the faults. Invariants and frames follow by cases on it. -/

namespace Sys2Proof.Machine

/-- The ways from a state s to a state t by an instruction. -/
inductive ExecCase : Instr → State → State → Prop where
  | ldi (s : State) (a : Fin 8) (imm : Byte) :
      ExecCase (.ldi (regByte a) imm) s ((s.withReg a imm).advance 3)
  | add (s : State) (a b : Fin 8) :
      ExecCase (.add (regByte a) (regByte b)) s ((s.withReg a (s.reg a + s.reg b)).advance 3)
  | mul (s : State) (a b : Fin 8) :
      ExecCase (.mul (regByte a) (regByte b)) s ((s.withReg a (s.reg a * s.reg b)).advance 3)
  | cmp (s : State) (a b : Fin 8) :
      ExecCase (.cmp (regByte a) (regByte b)) s ((s.withFl (compareFlags (s.reg a) (s.reg b))).advance 3)
  | jeqTaken (s : State) (a : Fin 8) (hf : s.fl = .equal) : ExecCase (.jeq (regByte a)) s (s.jumpTo (s.reg a))
  | jeqNotTaken (s : State) (a : Byte) (hf : s.fl ≠ .equal) : ExecCase (.jeq a) s (s.advance 2)
  | jneTaken (s : State) (a : Fin 8) (hf : s.fl ≠ .equal) : ExecCase (.jne (regByte a)) s (s.jumpTo (s.reg a))
  | jneNotTaken (s : State) (a : Byte) (hf : s.fl = .equal) : ExecCase (.jne a) s (s.advance 2)
  | jmp (s : State) (a : Fin 8) : ExecCase (.jmp (regByte a)) s (s.jumpTo (s.reg a))
  | push (s : State) (a : Fin 8) : ExecCase (.push (regByte a)) s
      ((s.decSp.withMem (Memory.write s.mem s.pushAddr (s.decSp.reg a))).advance 2)
  | pop (s : State) (a : Fin 8) : ExecCase (.pop (regByte a)) s
      (((s.withReg a (s.cell s.sp.toNat)).incSp).advance 2)
  | call (s : State) (a : Fin 8) (hpc : s.pc ≤ 253) : ExecCase (.call (regByte a)) s
      ((s.decSp.withMem (Memory.write s.mem s.pushAddr (BitVec.ofNat 8 (s.pc + 2)))).jumpTo (s.decSp.reg a))
  | ret (s : State) : ExecCase .ret s (s.incSp.jumpTo (s.cell s.sp.toNat))
  | prn (s : State) (a : Fin 8) : ExecCase (.prn (regByte a)) s ((s.emit (s.reg a)).advance 2)
  | hlt (s : State) : ExecCase .hlt s ((s.withRun .halted).advance 1)
  | unknown (s : State) (op : Byte) : ExecCase (.unknown op) s ((s.report s.pc op).advance 1)
  | invalidRegister (s : State) (i : Instr) (x : Byte) (hx : invalidRegisterOf i s = some x) :
      ExecCase i s (raiseFault (.invalidRegister x) s)
  | noReturnAddress (s : State) (a : Fin 8) (hpc : 254 ≤ s.pc) :
      ExecCase (.call (regByte a)) s (raiseFault (.outOfBounds (s.pc + 2)) s)

/-- Every instruction goes one of these ways. -/
theorem exec_total_case (i : Instr) (s : State) : ∃ t, exec i s = .next t ∧ ExecCase i s t := by
  have invalid {i : Instr} {x : Byte} (he : exec i s = .next (raiseFault (.invalidRegister x) s))
      (hx : invalidRegisterOf i s = some x) : ∃ t, exec i s = .next t ∧ ExecCase i s t :=
    ⟨_, he, .invalidRegister s i x hx⟩
  cases i with
  | ldi a imm =>
    rcases operand_cases a with ⟨r, rfl⟩ | h
    · exact ⟨_, exec_ldi s r imm, .ldi s r imm⟩
    · exact invalid (exec_ldi_invalid s imm h) (if_pos h)
  | add a b =>
    rcases operand_cases a with ⟨r, rfl⟩ | h
    · rcases operand_cases b with ⟨q, rfl⟩ | h
      · exact ⟨_, exec_add s r q, .add s r q⟩
      · exact invalid (exec_alu_invalid_src s r h _ (by simp)) (by simp [invalidRegisterOf, h])
    · exact invalid (exec_alu_invalid_dest s b h _ (by simp)) (if_pos h)
  | mul a b =>
    rcases operand_cases a with ⟨r, rfl⟩ | h
    · rcases operand_cases b with ⟨q, rfl⟩ | h
      · exact ⟨_, exec_mul s r q, .mul s r q⟩
      · exact invalid (exec_alu_invalid_src s r h _ (by simp)) (by simp [invalidRegisterOf, h])
    · exact invalid (exec_alu_invalid_dest s b h _ (by simp)) (if_pos h)
  | cmp a b =>
    rcases operand_cases a with ⟨r, rfl⟩ | h
    · rcases operand_cases b with ⟨q, rfl⟩ | h
      · exact ⟨_, exec_cmp s r q, .cmp s r q⟩
      · exact invalid (exec_alu_invalid_src s r h _ (by simp)) (by simp [invalidRegisterOf, h])
    · exact invalid (exec_alu_invalid_dest s b h _ (by simp)) (if_pos h)
  | jeq a =>
    by_cases hf : s.fl = .equal
    · rcases operand_cases a with ⟨r, rfl⟩ | h
      · exact ⟨_, exec_jeq_taken s r hf, .jeqTaken s r hf⟩
      · exact invalid (exec_jeq_invalid s h hf) (if_pos ⟨h, hf⟩)
    · exact ⟨_, exec_jeq_not_taken s a hf, .jeqNotTaken s a hf⟩
  | jne a =>
    by_cases hf : s.fl = .equal
    · exact ⟨_, exec_jne_not_taken s a hf, .jneNotTaken s a hf⟩
    · rcases operand_cases a with ⟨r, rfl⟩ | h
      · exact ⟨_, exec_jne_taken s r hf, .jneTaken s r hf⟩
      · exact invalid (exec_jne_invalid s h hf) (if_pos ⟨h, hf⟩)
  | jmp a =>
    rcases operand_cases a with ⟨r, rfl⟩ | h
    · exact ⟨_, exec_jmp s r, .jmp s r⟩
    · exact invalid (exec_jmp_invalid s h) (if_pos h)
  | push a =>
    rcases operand_cases a with ⟨r, rfl⟩ | h
    · exact ⟨_, exec_push s r, .push s r⟩
    · exact invalid (exec_push_invalid s h) (if_pos h)
  | pop a =>
    rcases operand_cases a with ⟨r, rfl⟩ | h
    · exact ⟨_, exec_pop s r, .pop s r⟩
    · exact invalid (exec_pop_invalid s h) (if_pos h)
  | call a =>
    rcases operand_cases a with ⟨r, rfl⟩ | h
    · rcases Nat.lt_or_ge 253 s.pc with hpc | hpc
      · exact ⟨_, exec_call_no_return_address s r hpc, .noReturnAddress s r hpc⟩
      · exact ⟨_, exec_call s r hpc, .call s r hpc⟩
    · exact invalid (exec_call_invalid s h) (if_pos h)
  | ret => exact ⟨_, exec_ret s, .ret s⟩
  | prn a =>
    rcases operand_cases a with ⟨r, rfl⟩ | h
    · exact ⟨_, exec_prn s r, .prn s r⟩
    · exact invalid (exec_prn_invalid s h) (if_pos h)
  | hlt => exact ⟨_, exec_hlt s, .hlt s⟩
  | unknown op => exact ⟨_, exec_unknown s op, .unknown s op⟩

/-- The inversion of `exec`: an instruction that answers t went one of these ways. -/
theorem exec_case {i : Instr} {s t : State} (h : exec i s = .next t) : ExecCase i s t := by
  obtain ⟨u, hu, hc⟩ := exec_total_case i s
  obtain rfl : u = t := by simpa [hu] using h
  exact hc

/-- An instruction raises InvalidRegister whenever the table of 60_exceptions.md R142 says so. -/
theorem exec_of_invalidRegister {i : Instr} {s : State} {x : Byte} (hx : invalidRegisterOf i s = some x) :
    exec i s = .next (raiseFault (.invalidRegister x) s) := by
  obtain ⟨t, ht, hc⟩ := exec_total_case i s
  rw [ht]
  cases hc <;> simp_all [invalidRegisterOf]

end Sys2Proof.Machine
end

