-- ==== Sys2Proof/Laws/PerInstr.lean ====
section
/-! SUPPORT. Statements made instruction by instruction, about instructions as syntax. -/

namespace Sys2Proof.Laws.EncodeLength

/-- An instruction is 1, 2 or 3 bytes, as many as the table gives its row (30_encoding.md R50, R58). -/
def Statement (i : Instr) : Prop := (encode i).length = i.length ∧ 1 ≤ i.length ∧ i.length ≤ 3

theorem ldi (a imm : Byte) : Statement (.ldi a imm) := ⟨rfl, Instr.length_bounds _⟩
theorem add (a b : Byte) : Statement (.add a b) := ⟨rfl, Instr.length_bounds _⟩
theorem mul (a b : Byte) : Statement (.mul a b) := ⟨rfl, Instr.length_bounds _⟩
theorem cmp (a b : Byte) : Statement (.cmp a b) := ⟨rfl, Instr.length_bounds _⟩
theorem jeq (a : Byte) : Statement (.jeq a) := ⟨rfl, Instr.length_bounds _⟩
theorem jne (a : Byte) : Statement (.jne a) := ⟨rfl, Instr.length_bounds _⟩
theorem jmp (a : Byte) : Statement (.jmp a) := ⟨rfl, Instr.length_bounds _⟩
theorem push (a : Byte) : Statement (.push a) := ⟨rfl, Instr.length_bounds _⟩
theorem pop (a : Byte) : Statement (.pop a) := ⟨rfl, Instr.length_bounds _⟩
theorem call (a : Byte) : Statement (.call a) := ⟨rfl, Instr.length_bounds _⟩
theorem ret : Statement .ret := ⟨rfl, Instr.length_bounds _⟩
theorem prn (a : Byte) : Statement (.prn a) := ⟨rfl, Instr.length_bounds _⟩
theorem hlt : Statement .hlt := ⟨rfl, Instr.length_bounds _⟩
theorem unknown (op : Byte) : Statement (.unknown op) := ⟨rfl, Instr.length_bounds _⟩

end Sys2Proof.Laws.EncodeLength
end

