-- ==== Sys2Proof/Tests/Slice0.lean ====
section
/-! SUPPORT. Tests of the model against spec/95_test_vectors.md (the vector is named in each comment), one
decoding per constructor from the bits of 30_encoding.md R57, the well-formedness smoke test, and a witness
of the hypotheses of each obligation. -/

namespace Sys2Proof.Tests

open Sys2Proof.Machine

/-! ### Helpers -/

/-- The reset state with SP_RESET 0xF4. -/
def fresh : State := State.resetWith 0xF4#8

/-- A state with these bytes at an address and `pc` there. -/
def startAt (addr : Nat) (bytes : List Byte) (s : State) : State := (storeBytes bytes addr s).withPc addr

/-- The next state of an outcome, if it is one. -/
def nextOf (o : Host.Outcome State Fault Refusal) : Option State :=
  match o with
  | .next s => some s
  | .fault _ => none
  | .refused _ => none

/-- The state after one step. -/
def stepped (s : State) : Option State := nextOf (step s)

/-! ### Well-formedness -/

/-- The one check refuses an `unknown` that carries an opcode of the table (30_encoding.md R59). -/
theorem test_wf_refuses_known_byte : (Instr.unknown 0x82#8).wf = false := by decide

theorem test_wf_accepts : (Instr.unknown 0x00#8).wf = true ∧ (Instr.add 0x09#8 0xFF#8).wf = true := by decide

/-! ### Decoding, bit by bit from 30_encoding.md R57 -/

theorem test_decode_ldi : decodeTableWord 24 0b00001000_00000001_10000010 = some (.ldi 0x01#8 0x08#8) := by decide
theorem test_decode_add : decodeTableWord 24 0b00000010_00000001_10100000 = some (.add 0x01#8 0x02#8) := by decide
theorem test_decode_mul : decodeTableWord 24 0b00000010_00000001_10100010 = some (.mul 0x01#8 0x02#8) := by decide
theorem test_decode_cmp : decodeTableWord 24 0b00000010_00000001_10100111 = some (.cmp 0x01#8 0x02#8) := by decide
theorem test_decode_jeq : decodeTableWord 16 0b00000011_01010101 = some (.jeq 0x03#8) := by decide
theorem test_decode_jne : decodeTableWord 16 0b00000011_01010110 = some (.jne 0x03#8) := by decide
theorem test_decode_jmp : decodeTableWord 16 0b00000011_01010100 = some (.jmp 0x03#8) := by decide
theorem test_decode_push : decodeTableWord 16 0b00000111_01000101 = some (.push 0x07#8) := by decide
theorem test_decode_pop : decodeTableWord 16 0b00000111_01000110 = some (.pop 0x07#8) := by decide
theorem test_decode_call : decodeTableWord 16 0b11111111_01010000 = some (.call 0xFF#8) := by decide
theorem test_decode_ret : decodeTableWord 8 0b00010001 = some .ret := by decide
theorem test_decode_prn : decodeTableWord 16 0b00001001_01000111 = some (.prn 0x09#8) := by decide
theorem test_decode_hlt : decodeTableWord 8 0b00000001 = some .hlt := by decide
theorem test_decode_unknown : decodeTableWord 8 0b10100001 = some (.unknown 0xA1#8) := by decide

/-- A word shorter than its instruction has operand bytes of zeros. -/
theorem test_decode_short_word : decodeTableWord 8 0x82 = some (.ldi 0x00#8 0x00#8) := by decide

/-- A placed word is the first instruction after reset. -/
theorem test_withFetchWord : (stepped (State.reset.withFetchWord 24 0x080182)).map (fun t => (t.reg 1, t.pc)) =
    some (0x08#8, 3) := by decide

/-! ### LDI -/

/-- T3. -/
theorem test_ldi_keeps_flags : (stepped (startAt 0 [0x82#8, 0x03#8, 0xFF#8] (fresh.withFl .equal))).map
    (fun t => (t.reg 3, t.fl, t.pc)) = some (0xFF#8, .equal, 3) := by decide

/-- T5. -/
theorem test_ldi_fetch_fault : stepped (startAt 254 [0x82#8, 0x00#8] fresh) =
    some (faultedAs (.outOfBounds 256) (startAt 254 [0x82#8, 0x00#8] fresh)) := by decide

/-! ### ADD, MUL, CMP -/

/-- T12. -/
theorem test_add_doubles : (stepped (startAt 0 [0xA0#8, 0x02#8, 0x02#8] (fresh.withReg 2 0x81#8))).map
    (fun t => (t.reg 2, t.pc)) = some (0x02#8, 3) := by decide

/-- T15. -/
theorem test_add_first_index_first : (stepped (startAt 0 [0xA0#8, 0x09#8, 0x0A#8] fresh)).map (·.run) =
    some (.faulted (.invalidRegister 0x09#8)) := by decide

/-- T22. -/
theorem test_mul_wraps : (stepped (startAt 0 [0xA2#8, 0x00#8, 0x01#8]
    ((fresh.withReg 0 0xFF#8).withReg 1 0xFF#8))).map (fun t => (t.reg 0, t.reg 1)) = some (0x01#8, 0xFF#8) := by decide

/-- T25. -/
theorem test_mul_bad_second_index : stepped (startAt 0 [0xA2#8, 0x00#8, 0x08#8] (fresh.withReg 0 0x03#8)) =
    some (faultedAs (.invalidRegister 0x08#8) (startAt 0 [0xA2#8, 0x00#8, 0x08#8] (fresh.withReg 0 0x03#8))) := by
  decide

/-- T33. -/
theorem test_cmp_unsigned : (stepped (startAt 0 [0xA7#8, 0x00#8, 0x01#8]
    ((fresh.withReg 0 0x80#8).withReg 1 0x7F#8))).map (·.fl) = some .greater := by decide

/-- T34. -/
theorem test_cmp_itself : (stepped (startAt 0 [0xA7#8, 0x04#8, 0x04#8]
    ((fresh.withReg 4 0x63#8).withFl .less))).map (·.fl) = some .equal := by decide

/-! ### JEQ, JNE, JMP -/

/-- J3, J4. -/
theorem test_jeq : (stepped (startAt 16 [0x55#8, 0x02#8] ((fresh.withReg 2 0x40#8).withFl .greater))).map (·.pc) = some 18 ∧
    (stepped (startAt 16 [0x55#8, 0x02#8] ((fresh.withReg 2 0x40#8).withFl .equal))).map (·.pc) = some 64 := by decide

/-- T54. -/
theorem test_jeq_bad_index_not_taken : (stepped (startAt 4 [0x55#8, 0x09#8] (fresh.withFl .less))).map
    (fun t => (t.pc, t.run)) = some (6, .running) := by decide

/-- J5, J8. -/
theorem test_jne : (stepped (startAt 16 [0x56#8, 0x02#8] (fresh.withReg 2 0x40#8))).map (·.pc) = some 64 ∧
    (stepped (startAt 16 [0x56#8, 0x02#8] ((fresh.withReg 2 0x40#8).withFl .equal))).map (·.pc) = some 18 := by decide

/-- T57. -/
theorem test_jne_bad_index_taken : (stepped (startAt 4 [0x56#8, 0x09#8] fresh)).map (fun t => (t.pc, t.run)) =
    some (4, .faulted (.invalidRegister 0x09#8)) := by decide

/-- T59. -/
theorem test_jmp_highest_target : (stepped (startAt 0 [0x54#8, 0x00#8] (fresh.withReg 0 0xFF#8))).map (·.pc) =
    some 255 := by decide

/-- T53. -/
theorem test_jmp_bad_index : (stepped (startAt 0 [0x54#8, 0x08#8] fresh)).map (fun t => (t.pc, t.run)) =
    some (0, .faulted (.invalidRegister 0x08#8)) := by decide

/-! ### PUSH, POP -/

/-- T61. -/
theorem test_push_wraps : (stepped (startAt 0 [0x45#8, 0x00#8] ((fresh.withReg 0 0xAB#8).withReg 7 0x00#8))).map
    (fun t => (t.sp, t.cell 0xFF, t.pc)) = some (0xFF#8, 0xAB#8, 2) := by decide

/-- T62. -/
theorem test_push_sp : (stepped (startAt 0 [0x45#8, 0x07#8] fresh)).map (fun t => (t.sp, t.cell 0xF3)) =
    some (0xF3#8, 0xF3#8) := by decide

/-- T66. -/
theorem test_pop_wraps : (stepped (startAt 0 [0x46#8, 0x01#8] (storeBytes [0x5A#8] 0xFF (fresh.withReg 7 0xFF#8)))).map
    (fun t => (t.reg 1, t.sp, t.pc)) = some (0x5A#8, 0x00#8, 2) := by decide

/-- T67. -/
theorem test_pop_sp : (stepped (startAt 0 [0x46#8, 0x07#8] (storeBytes [0x20#8] 0xF3 (fresh.withReg 7 0xF3#8)))).map
    (·.sp) = some 0x21#8 := by decide

/-! ### CALL, RET -/

/-- T72. -/
theorem test_call_no_return_address : (stepped (startAt 254 [0x50#8, 0x01#8] (fresh.withReg 1 0x30#8))).map
    (fun t => (t.run, t.sp, t.cell 0xF3, t.pc)) = some (.faulted (.outOfBounds 256), 0xF4#8, 0x00#8, 254) := by decide

/-- T74. -/
theorem test_call_sp : (stepped (startAt 6 [0x50#8, 0x07#8] fresh)).map (fun t => (t.sp, t.cell 0xF3, t.pc)) =
    some (0xF3#8, 0x08#8, 243) := by decide

/-- T77. -/
theorem test_ret_wraps : (stepped (startAt 48 [0x11#8] (storeBytes [0x08#8] 0xFF (fresh.withReg 7 0xFF#8)))).map
    (fun t => (t.pc, t.sp)) = some (8, 0x00#8) := by decide

/-- T78. -/
theorem test_ret_at_top : (stepped (startAt 255 [0x11#8] (fresh.withReg 7 0x10#8))).map (fun t => (t.pc, t.sp)) =
    some (0, 0x11#8) := by decide

/-! ### PRN, HLT, unknown opcodes and the fetch -/

/-- T80. -/
theorem test_prn : (stepped (startAt 3 [0x47#8, 0x00#8] (fresh.withReg 0 0x08#8))).map (fun t => (t.out, t.pc)) =
    some ([⟨0x08#8⟩], 5) := by decide

/-- T83. -/
theorem test_prn_fetch_fault : (stepped (startAt 255 [0x47#8] fresh)).map (fun t => (t.run, t.pc, t.out)) =
    some (.faulted (.outOfBounds 256), 255, []) := by decide

/-- T85. -/
theorem test_hlt_at_top : (stepped (startAt 255 [0x01#8] fresh)).map (fun t => (t.run, t.pc)) =
    some (.halted, 256) := by decide

/-- After a halt there is no step (40_interpreter_loop.md R71). -/
theorem test_no_step_after_halt : stepped (fresh.withRun .halted) = none := by decide

/-- T92. -/
theorem test_unknown_at_top : (stepped (startAt 255 [0x83#8] fresh)).map (fun t => (t.diag, t.pc, t.run)) =
    some ([⟨255, 0x83#8⟩], 256, .running) := by decide

/-- T93. -/
theorem test_unknown_between_opcodes : (stepped (startAt 4 [0xA1#8] fresh)).map (fun t => (t.diag, t.pc)) =
    some ([⟨4, 0xA1#8⟩], 5) := by decide

/-- T94. -/
theorem test_fetch_past_memory : stepped (fresh.withPc 256) =
    some (faultedAs (.outOfBounds 256) (fresh.withPc 256)) := by decide

/-! ### Load -/

/-- The bytes of program P1 at address 0 (70_reset_and_hazards.md R172). -/
theorem test_load : (match fresh.load [0x82#8, 0x00#8, 0x08#8, 0x47#8, 0x00#8, 0x01#8] with
    | .ok t => decide (t.cell 0 = 0x82#8 ∧ t.cell 5 = 0x01#8 ∧ t.cell 6 = 0x00#8 ∧ t.pc = 0)
    | .error _ => false) = true := by decide

/-! ### Witnesses: for each obligation with hypotheses, concrete values that meet them together, at the
boundaries of the ranges they name -/

theorem exists_next {o : Host.Outcome State Fault Refusal} {Q : State → Prop} [DecidablePred Q]
    (h : (nextOf o).any (fun t => decide (Q t)) = true) : ∃ t, o = .next t ∧ Q t := by
  cases o with
  | next t => exact ⟨t, rfl, by simpa [nextOf] using h⟩
  | fault r => simp [nextOf] at h
  | refused r => simp [nextOf] at h

theorem witness_ResetMemoryPcRun : ∃ a : Nat, a ≤ 255 ∧ a = 255 := ⟨255, by decide⟩

theorem witness_LoadPlacesProgram :
    ((List.replicate 256 0x01#8).length ≤ 256 ∧ (List.replicate 256 0x01#8)[255]? = some 0x01#8 ∧ fresh.Inv) ∧
      (([] : List Byte).length ≤ 0 ∧ 0 ≤ 256) ∧ 256 < (List.replicate 257 0x01#8).length :=
  ⟨⟨by rw [List.length_replicate], by rw [List.getElem?_replicate, if_pos (by decide)], rfl, by decide⟩, by decide,
    by rw [List.length_replicate]; decide⟩

theorem witness_DecodeOfEncode : (Instr.unknown 0xFF#8).wf = true ∧ (Instr.ldi 0xFF#8 0xFF#8).wf = true := by decide

theorem witness_EncodeOfDecode : ∃ i rest, decode [0x47#8, 0x09#8, 0x00#8] = .ok (i, rest) := ⟨.prn 0x09#8, [0x00#8], rfl⟩

theorem witness_DecodeFailsOnlyWhenBytesRunOut :
    ((lookup 0x82#8).operandCount ≤ [0x00#8, 0x01#8].length) ∧
      (([] : List Byte).length < (lookup 0x45#8).operandCount ∧ ([] : List Byte).length = 0) ∧
      ([0x00#8].length < (lookup 0xA0#8).operandCount ∧ [0x00#8].length = 1) := by decide

theorem witness_OpcodeTableIsUnambiguous : ((0x82#8, Mnemonic.ldi) ∈ opcodeTable) ∧
    ∀ p ∈ opcodeTable, p.1 ≠ 0x83#8 := by decide

/-- A HLT at the last address, and a three-byte instruction that ends there. -/
theorem witness_StepRunsDecodedInstruction :
    (let s := startAt 255 [0x01#8] fresh
     s.run = .running ∧ decode [0x01#8] = .ok (.hlt, []) ∧
      ∀ k b, k < 1 → [0x01#8][k]? = some b → memRead (s.pc + k) s = .ok b) ∧
    (let s := startAt 253 [0x82#8, 0x00#8, 0x08#8] fresh
     s.run = .running ∧ decode [0x82#8, 0x00#8, 0x08#8] = .ok (.ldi 0x00#8 0x08#8, []) ∧
      ∀ k b, k < 3 → [0x82#8, 0x00#8, 0x08#8][k]? = some b → memRead (s.pc + k) s = .ok b) := by
  refine ⟨⟨by decide, rfl, ?_⟩, ⟨by decide, rfl, ?_⟩⟩
  · intro k b hk hb
    obtain rfl : k = 0 := by omega
    obtain rfl : 0x01#8 = b := by simpa using hb
    rfl
  · intro k b hk hb
    obtain rfl | rfl | rfl : k = 0 ∨ k = 1 ∨ k = 2 := by omega
    all_goals
      simp only [List.getElem?_cons_zero, List.getElem?_cons_succ, Option.some.injEq] at hb
      subst hb
      rfl

theorem witness_StepExistsExactlyWhenRunning : fresh.run = .running ∧ ∃ t, step fresh = .next t := ⟨rfl, _, rfl⟩

theorem witness_TerminalStatesStopByName : (fresh.withRun .halted).run = .halted ∧
    (fresh.withRun (.faulted (.outOfBounds 256))).run = .faulted (.outOfBounds 256) := by decide

theorem witness_FetchPastMemoryFaults :
    ((fresh.withPc 256).run = .running ∧ 256 ≤ (fresh.withPc 256).pc) ∧ (fresh.withPc 255).pc = 255 := by decide

/-- A three-byte instruction at 254 and a two-byte one at 255 lack a byte; the same at 253 and 254 do not. -/
theorem witness_OperandFetch :
    (∀ s ∈ [startAt 254 [0x82#8, 0x00#8] fresh, startAt 255 [0x55#8] fresh],
      s.run = .running ∧ s.pc ≤ 255 ∧ 256 ≤ s.pc + s.operandsHere) ∧
    ∀ s ∈ [startAt 253 [0x82#8, 0x00#8, 0x00#8] fresh, startAt 254 [0x55#8, 0x00#8] fresh, startAt 255 [0x01#8] fresh],
      s.run = .running ∧ s.pc ≤ 255 ∧ s.pc + s.operandsHere ≤ 255 ∧
        ((encode (.jeq 0x00#8))[1]? = some 0x00#8) := by decide

theorem witness_NextProgramCounter :
    (∃ t, step (startAt 0 [0x47#8, 0x08#8] fresh) = .next t ∧ t.run = .faulted (.invalidRegister 0x08#8)) ∧
      ∃ t, step (startAt 0 [0x01#8] fresh) = .next t ∧ t.run = .halted :=
  ⟨exists_next (by decide), exists_next (by decide)⟩

theorem witness_MemoryContracts : (255 : Nat) ≤ 255 ∧ (254 : Nat) ≠ 255 ∧ (256 : Nat) ≤ 256 := by decide

theorem witness_StackPointerWraps : (0 : Nat) ≤ 255 ∧ (255 : Nat) ≤ 255 := by decide

/-- PUSH of the HLT opcode just below the program that then runs into it. -/
theorem witness_StoreIsSeenByFetch :
    let s := (fresh.withReg 0 0x01#8).withReg 7 0x0A#8
    storedByte (.push 0x00#8) s = some 0x01#8 ∧ ∃ t, exec (.push 0x00#8) s = .next t ∧
      fetch (t.withPc 9) = .ok .hlt ∧ (t.withPc 9).pc + 0 = s.pushAddr ∧ 0 < Instr.hlt.length :=
  ⟨rfl, _, rfl, rfl, rfl, by decide⟩

/-- CALL stores its return address 0xFF, fetched as an operand. -/
theorem witness_StoreIsSeenByFetch_operand :
    let s := (fresh.withPc 253).withReg 7 0x02#8
    storedByte (.call 0x00#8) s = some 0xFF#8 ∧ ∃ t, exec (.call 0x00#8) s = .next t ∧
      fetch (startAt 0 [0x54#8] t) = .ok (.jmp 0xFF#8) ∧ (startAt 0 [0x54#8] t).pc + 1 = s.pushAddr :=
  ⟨rfl, _, rfl, rfl, rfl⟩

/-- LDI R0 with another value in R0 (written, not read) and in R7 (neither). -/
theorem witness_RegisterAccessTable : (∃ t, exec (.ldi 0x00#8 0x01#8) fresh = .next t) ∧
    regByte 7 ∉ registersWritten (.ldi 0x00#8 0x01#8) ∧ regByte 0 ∉ registersRead (.ldi 0x00#8 0x01#8) fresh ∧
    regByte 0 ∈ registersWritten (.ldi 0x00#8 0x01#8) ∧
    regByte 0 ∉ registersRead (.jeq 0x00#8) fresh ∧ ∃ t, exec (.jeq 0x00#8) fresh = .next t :=
  ⟨⟨_, rfl⟩, by decide, by decide, by decide, by decide, _, rfl⟩

/-- POP of R6 writes R6 without reading it. -/
theorem witness_RegisterAccessTable_pop : regByte 6 ∉ registersRead (.pop 0x06#8) fresh ∧
    regByte 6 ∈ registersWritten (.pop 0x06#8) ∧ ∃ t, exec (.pop 0x06#8) fresh = .next t :=
  ⟨by decide, by decide, _, rfl⟩

/-- The hypotheses of an operand fetch fault, for an opcode at an address. -/
def operandFetchHypotheses (opcode : Byte) (lo pc : Nat) : Bool :=
  let s := startAt pc [opcode] fresh
  decide (s.run = .running ∧ lo ≤ s.pc ∧ s.pc ≤ 255 ∧ s.cell s.pc = opcode)

theorem witness_LoadImmediateRule : 7 < (0x08#8 : Byte).toNat ∧ 7 < (0xFF#8 : Byte).toNat ∧
    operandFetchHypotheses 0x82#8 254 254 = true ∧ operandFetchHypotheses 0x82#8 254 255 = true := by decide

theorem witness_UnsupportedOperationUnreachable : ∃ t, step fresh = .next t ∧ t.pc = 1 := exists_next (by decide)

theorem witness_AddRule : 7 < (0x08#8 : Byte).toNat ∧ (0x07#8 : Byte).toNat ≤ 7 ∧
    operandFetchHypotheses 0xA0#8 254 254 = true ∧ operandFetchHypotheses 0xA0#8 254 255 = true := by decide

theorem witness_MultiplyRule : 7 < (0x08#8 : Byte).toNat ∧ (0x07#8 : Byte).toNat ≤ 7 ∧
    operandFetchHypotheses 0xA2#8 254 254 = true ∧ operandFetchHypotheses 0xA2#8 254 255 = true := by decide

theorem witness_CompareRule : 7 < (0x08#8 : Byte).toNat ∧ (0x07#8 : Byte).toNat ≤ 7 ∧
    operandFetchHypotheses 0xA7#8 254 254 = true ∧ operandFetchHypotheses 0xA7#8 254 255 = true := by decide

theorem witness_OnlyCompareWritesAndJumpsReadFlags :
    ((Instr.mul 0x00#8 0x01#8).mnemonic ≠ .cmp ∧ (Instr.mul 0x00#8 0x01#8).mnemonic ≠ .jeq ∧
      (Instr.mul 0x00#8 0x01#8).mnemonic ≠ .jne ∧ ∃ t, exec (.mul 0x00#8 0x01#8) fresh = .next t) ∧
    (∀ a b, fetch fresh ≠ .ok (.cmp a b)) ∧ ∃ t, step fresh = .next t :=
  ⟨⟨by decide, by decide, by decide, _, rfl⟩, fun _ _ => nofun, _, rfl⟩

/-- The CMP clause: registers at both ends of their range. -/
theorem witness_OnlyCompareWritesAndJumpsReadFlags_cmp :
    (Instr.cmp (regByte 0) (regByte 7)).mnemonic ≠ .jeq ∧ (Instr.cmp (regByte 0) (regByte 7)).mnemonic ≠ .jne ∧
      ∃ t, exec (.cmp (regByte 0) (regByte 7)) fresh = .next t := ⟨by decide, by decide, _, rfl⟩

theorem witness_NoneFlagIsNeverWritten : ∃ t, step fresh = .next t ∧ t.fl = .none := exists_next (by decide)

theorem witness_NonEqualFlagsAreIndistinguishable : fresh.fl ≠ .equal ∧ Flags.greater ≠ .equal ∧
    ∃ t, step fresh = .next t := ⟨by decide, by decide, _, rfl⟩

theorem witness_JumpIfEqualRule : (fresh.withFl .equal).fl = .equal ∧ fresh.fl ≠ .equal ∧
    (fresh.withFl .greater).fl ≠ .equal ∧ 7 < (0x08#8 : Byte).toNat ∧ operandFetchHypotheses 0x55#8 255 255 = true := by
  decide

theorem witness_JumpIfNotEqualRule : (fresh.withFl .equal).fl = .equal ∧ fresh.fl ≠ .equal ∧
    (fresh.withFl .less).fl ≠ .equal ∧ 7 < (0x08#8 : Byte).toNat ∧ operandFetchHypotheses 0x56#8 255 255 = true := by
  decide

theorem witness_JumpRule : 7 < (0x08#8 : Byte).toNat ∧ operandFetchHypotheses 0x54#8 255 255 = true := by decide

theorem witness_PushRule : 7 < (0x08#8 : Byte).toNat ∧ operandFetchHypotheses 0x45#8 255 255 = true := by decide

theorem witness_PopRule : (6 : Fin 8) ≠ spIndex ∧ (7 : Fin 8) = spIndex ∧ 7 < (0x08#8 : Byte).toNat ∧
    operandFetchHypotheses 0x46#8 255 255 = true := by decide

theorem witness_CallRule : (fresh.withPc 253).pc ≤ 253 ∧ 254 ≤ (fresh.withPc 254).pc ∧ 7 < (0x08#8 : Byte).toNat ∧
    operandFetchHypotheses 0x50#8 255 255 = true := by decide

theorem witness_ReturnRule : operandFetchHypotheses 0x11#8 0 255 = true := by decide

theorem witness_CallThenReturn : (fresh.withPc 253).pc ≤ 253 ∧
    ∃ t, exec (.call 0x01#8) (fresh.withPc 253) = .next t ∧ ∃ u : State, u.sp = t.sp ∧
      u.cell (fresh.withPc 253).pushAddr = t.cell (fresh.withPc 253).pushAddr :=
  ⟨by decide, _, rfl, _, rfl, rfl⟩

theorem witness_PrintRule : 7 < (0x08#8 : Byte).toNat ∧ operandFetchHypotheses 0x47#8 255 255 = true := by decide

theorem witness_HaltRule : operandFetchHypotheses 0x01#8 0 255 = true := by decide

theorem witness_UnknownOpcodeRule : lookup 0xFF#8 = .unknown ∧ operandFetchHypotheses 0xFF#8 0 255 = true := by decide

theorem witness_FrameRegisterWriters : ∃ t, exec (.add 0x06#8 0x07#8) fresh = .next t ∧ regByte 7 ≠ 0x06#8 :=
  ⟨_, rfl, by decide⟩

theorem witness_FrameCompareAndJumps : (∃ t, exec (.cmp 0x00#8 0x07#8) fresh = .next t) ∧
    ∃ t, exec (.jmp 0x07#8) fresh = .next t := ⟨⟨_, rfl⟩, _, rfl⟩

theorem witness_FrameStackStores : (∃ t, exec (.push 0x07#8) fresh = .next t) ∧
    ∃ t, exec (.call 0x07#8) fresh = .next t := ⟨⟨_, rfl⟩, _, rfl⟩

theorem witness_FrameStackLoads : (∃ t, exec (.pop 0x07#8) fresh = .next t) ∧ (∃ t, exec .ret fresh = .next t) ∧
    (0 : Fin 8) ≠ spIndex ∧ regByte 0 ≠ 0x07#8 := ⟨⟨_, rfl⟩, ⟨_, rfl⟩, by decide, by decide⟩

theorem witness_FrameOutputHaltUnknown : (∃ t, exec (.prn 0x07#8) fresh = .next t) ∧
    (∃ t, exec .hlt fresh = .next t) ∧ ∃ t, exec (.unknown 0x00#8) fresh = .next t := ⟨⟨_, rfl⟩, ⟨_, rfl⟩, _, rfl⟩

theorem witness_FaultsArePrecise : (∃ t, step (fresh.withPc 256) = .next t ∧ t.run = .faulted (.outOfBounds 256)) ∧
    ∃ t, step (startAt 0 [0xA0#8, 0x00#8, 0x08#8] fresh) = .next t ∧ t.run = .faulted (.invalidRegister 0x08#8) :=
  ⟨exists_next (by decide), exists_next (by decide)⟩

/-- Each of the four rows of the table, at its address. -/
theorem witness_OutOfBoundsCauses :
    (∀ s ∈ [fresh.withPc 256, startAt 255 [0x47#8] fresh, startAt 254 [0x82#8, 0x00#8] fresh, startAt 254 [0x50#8, 0x01#8] fresh],
      s.run = .running ∧ s.pc ≤ 256) ∧
    outOfBoundsHere (fresh.withPc 256) ∧ outOfBoundsHere (startAt 255 [0x47#8] fresh) ∧
    outOfBoundsHere (startAt 254 [0x82#8, 0x00#8] fresh) ∧ outOfBoundsHere (startAt 254 [0x50#8, 0x01#8] fresh) ∧
    ∃ t, step (fresh.withPc 256) = .next t ∧ t.run = .faulted (.outOfBounds 256) :=
  ⟨by decide, .inl rfl, .inr (.inl (by decide)), .inr (.inr (.inl (by decide))), .inr (.inr (.inr ⟨rfl, 1, rfl⟩)),
    exists_next (by decide)⟩

theorem witness_InvalidRegisterCauses : (∀ k, fresh.run ≠ .faulted k) ∧
    (∃ t, exec (.jne 0x08#8) fresh = .next t ∧ t.run = .faulted (.invalidRegister 0x08#8)) ∧
    (∃ t, exec (.jeq 0x08#8) fresh = .next t ∧ t.run = .running) ∧
    invalidRegisterOf (.jne 0x08#8) fresh = some 0x08#8 ∧ invalidRegisterOf (.ldi 0x07#8 0x08#8) fresh = none :=
  ⟨fun _ => nofun, exists_next (by decide), exists_next (by decide), by decide, by decide⟩

theorem witness_FaultPriority :
    ((startAt 254 [0xA0#8, 0x09#8] fresh).run = .running ∧ (startAt 254 [0xA0#8, 0x09#8] fresh).pc = 254 ∧
      (startAt 254 [0xA0#8, 0x09#8] fresh).cell 254 = 0xA0#8) ∧
    7 < (0x09#8 : Byte).toNat ∧ 7 < (0x0A#8 : Byte).toNat ∧ (fresh.withPc 254).pc = 254 := by decide

theorem witness_StepKeepsInvariant : fresh.Inv ∧ ∃ t, step fresh = .next t := ⟨⟨rfl, by decide⟩, _, rfl⟩

theorem witness_OnlyHaltReachesHalted : (∃ t, step (startAt 255 [0x01#8] fresh) = .next t ∧ t.run = .halted) ∧
    (fresh.withRun .halted).run = .halted ∧ ∃ t, exec (.prn 0x00#8) fresh = .next t :=
  ⟨exists_next (by decide), rfl, _, rfl⟩

theorem witness_OnlyPushAndCallStore : ∃ t, step (startAt 0 [0x50#8, 0x00#8] fresh) = .next t ∧
    t.cell 0xF3 ≠ (startAt 0 [0x50#8, 0x00#8] fresh).cell 0xF3 := exists_next (by decide)

theorem witness_StreamsGrowByTheRule : (∃ t, exec (.prn 0x07#8) fresh = .next t ∧ t.out = [⟨0xF4#8⟩]) ∧
    ∃ t, exec (.unknown 0x00#8) fresh = .next t ∧ t.diag = [⟨0, 0x00#8⟩] :=
  ⟨exists_next (by decide), exists_next (by decide)⟩

theorem witness_StreamsAreNeverRead : ∃ t, step fresh = .next t := ⟨_, rfl⟩

/-- The rest of memory is zero from 254 on, and from 256 on there is none. -/
theorem witness_RunningOffTheEnd :
    ((fresh.withPc 254).run = .running ∧ (fresh.withPc 254).pc ≤ 256 ∧
      ∀ a, (fresh.withPc 254).pc ≤ a → a ≤ 255 → (fresh.withPc 254).cell a = 0x00#8) ∧
    (fresh.withPc 256).run = .running ∧ (fresh.withPc 256).pc ≤ 256 :=
  ⟨⟨rfl, by decide, fun _ _ _ => rfl⟩, rfl, by decide⟩

end Sys2Proof.Tests
end

/-! Proofs about the state of the machine (10_state.md): the program counter, the run state, the flags and
register access. -/

namespace Sys2Proof.Machine

/-! ### The ways of an instruction, both directions -/

/-- Each way of `ExecCase` is what `exec` answers: the converse of `exec_case`. -/
theorem ExecCase.exec_eq {i : Instr} {s t : State} (h : ExecCase i s t) : exec i s = .next t := by
  cases h with
  | ldi _ a imm => exact exec_ldi s a imm
  | add _ a b => exact exec_add s a b
  | mul _ a b => exact exec_mul s a b
  | cmp _ a b => exact exec_cmp s a b
  | jeqTaken _ a hf => exact exec_jeq_taken s a hf
  | jeqNotTaken _ a hf => exact exec_jeq_not_taken s a hf
  | jneTaken _ a hf => exact exec_jne_taken s a hf
  | jneNotTaken _ a hf => exact exec_jne_not_taken s a hf
  | jmp _ a => exact exec_jmp s a
  | push _ a => exact exec_push s a
  | pop _ a => exact exec_pop s a
  | call _ a hpc => exact exec_call s a hpc
  | ret => exact exec_ret s
  | prn _ a => exact exec_prn s a
  | hlt => exact exec_hlt s
  | unknown _ op => exact exec_unknown s op
  | invalidRegister _ _ x hx => exact exec_of_invalidRegister hx
  | noReturnAddress _ a hpc => exact exec_call_no_return_address s a hpc

/-- An instruction takes a fault and changes nothing else, or it completes: then `pc` is as the table of
10_state.md R16 gives it, and the run state is Halted after HLT and as it was after any other. -/
theorem exec_faults_or_completes {i : Instr} {s t : State} (h : exec i s = .next t) :
    (∃ k, t = raiseFault k s) ∨ (nextPc i s t ∧ t.run = if i = .hlt then .halted else s.run) := by
  cases exec_case h with
  | invalidRegister _ _ x _ => exact .inl ⟨_, rfl⟩
  | noReturnAddress _ a _ => exact .inl ⟨_, rfl⟩
  | jeqTaken _ a hf => exact .inr ⟨by simp [nextPc, hf], rfl⟩
  | jeqNotTaken _ a hf => exact .inr ⟨by simp [nextPc, hf], rfl⟩
  | jneTaken _ a hf => exact .inr ⟨by simp [nextPc, hf], rfl⟩
  | jneNotTaken _ a hf => exact .inr ⟨by simp [nextPc, hf], rfl⟩
  | jmp _ a => exact .inr ⟨⟨a, rfl, rfl⟩, rfl⟩
  | call _ a _ => exact .inr ⟨⟨a, rfl, rfl⟩, rfl⟩
  | _ => exact .inr ⟨rfl, rfl⟩

/-! ### The program counter -/

/-- A step is a fault, of the fetch or of the instruction, that changes nothing else, or it completes the
fetched instruction and leaves a machine that is not faulted. -/
theorem step_faults_or_completes {s t : State} (h : step s = .next t) :
    (∃ k, t = raiseFault k s) ∨ ∃ i, fetch s = .ok i ∧ nextPc i s t ∧ ∀ k, t.run ≠ .faulted k := by
  obtain ⟨hrun, ⟨i, hi, hexec⟩ | ⟨k, -, hk⟩⟩ := step_cases s h
  · obtain hfault | ⟨hpc, hend⟩ := exec_faults_or_completes hexec
    · exact .inl hfault
    · refine .inr ⟨i, hi, hpc, fun k => ?_⟩
      rw [hend, hrun]
      split <;> simp
  · exact .inl ⟨k, hk⟩

/-- Settles O15: the run state a step leaves tells a fault from a completed instruction. -/
theorem nextProgramCounter : Obligations.NextProgramCounter := by
  intro s t h
  obtain ⟨k, rfl⟩ | ⟨i, hi, hpc, hrun⟩ := step_faults_or_completes h
  · exact ⟨fun _ _ => rfl, fun hk => absurd rfl (hk k)⟩
  · exact ⟨fun k hk => absurd hk (hrun k), fun _ => ⟨i, hi, hpc⟩⟩

/-! ### The run state -/

/-- From a machine that has not halted, HLT and no other instruction reaches Halted. -/
theorem exec_run_halted_iff {i : Instr} {s t : State} (hs : s.run ≠ .halted) (h : exec i s = .next t) :
    t.run = .halted ↔ i = .hlt := by
  constructor
  · intro ht
    obtain ⟨k, rfl⟩ | ⟨-, hend⟩ := exec_faults_or_completes h
    · cases ht
    · by_contra hi
      exact hs (by rw [← ht, hend, if_neg hi])
  · rintro rfl
    rw [exec_hlt, Host.Outcome.next.injEq] at h
    rw [← h]
    rfl

/-- A step ends in Halted exactly when it fetched HLT. -/
theorem step_run_halted_iff {s t : State} (h : step s = .next t) : t.run = .halted ↔ fetch s = .ok .hlt := by
  obtain ⟨hrun, ⟨i, hi, hexec⟩ | ⟨k, hk, rfl⟩⟩ := step_cases s h
  · rw [exec_run_halted_iff (by simp [hrun]) hexec, hi, Except.ok.injEq]
  · simp [hk]

/-- No instruction reads the run state: HLT and a fault set the same one whatever it was, and every other
way keeps it. -/
theorem exec_withRun {i : Instr} {s t : State} (h : exec i s = .next t) :
    (∀ r, exec i (s.withRun r) = .next t) ∨ ∀ r, exec i (s.withRun r) = .next (t.withRun r) := by
  cases exec_case h with
  | hlt => exact .inl fun r => exec_hlt (s.withRun r)
  | invalidRegister _ _ x hx => exact .inl fun r => (ExecCase.invalidRegister (s.withRun r) i x hx).exec_eq
  | noReturnAddress _ a hpc => exact .inl fun r => exec_call_no_return_address (s.withRun r) a hpc
  | _ => exact .inr fun r => ExecCase.exec_eq (by constructor <;> assumption)

/-- Settles O53, from what a step and an instruction do to the run state. -/
theorem onlyHaltReachesHalted : Obligations.OnlyHaltReachesHalted := by
  refine ⟨⟨rfl, rfl⟩, fun s t => step_run_halted_iff, fun s hs t h => ?_, fun i s t => exec_withRun⟩
  obtain ⟨hrun, -⟩ := step_cases s h
  rw [hs] at hrun
  cases hrun

/-! ### The flags -/

/-- Only CMP writes `fl` (10_state.md R18). -/
theorem exec_fl {i : Instr} {s t : State} (hi : i.mnemonic ≠ .cmp) (h : exec i s = .next t) : t.fl = s.fl := by
  cases exec_case h with
  | cmp _ a b => exact absurd rfl hi
  | _ => rfl

/-- A step that does not fetch CMP keeps `fl`. -/
theorem step_fl {s t : State} (hf : ∀ a b, fetch s ≠ .ok (.cmp a b)) (h : step s = .next t) : t.fl = s.fl := by
  obtain ⟨-, ⟨i, hi, hexec⟩ | ⟨k, -, rfl⟩⟩ := step_cases s h
  · refine exec_fl (fun hm => ?_) hexec
    cases i with
    | cmp a b => exact hf a b hi
    | _ => cases hm
  · rfl

/-- Only the conditional jumps look at `fl` before they check their index (43_jumps.md R100, R101). -/
theorem invalidRegisterOf_withFl {i : Instr} (hjeq : i.mnemonic ≠ .jeq) (hjne : i.mnemonic ≠ .jne) (s : State)
    (f : Flags) : invalidRegisterOf i (s.withFl f) = invalidRegisterOf i s := by
  cases i with
  | jeq a => exact absurd rfl hjeq
  | jne a => exact absurd rfl hjne
  | _ => rfl

/-- Only JEQ and JNE read `fl`: a CMP that completes overwrites it, and any other instruction carries the
other value along. -/
theorem exec_withFl {i : Instr} {s t : State} (hjeq : i.mnemonic ≠ .jeq) (hjne : i.mnemonic ≠ .jne)
    (h : exec i s = .next t) (f : Flags) : exec i (s.withFl f) = .next t ∨
      (exec i (s.withFl f) = .next (t.withFl f) ∧ ∀ a b : Fin 8, i ≠ .cmp (regByte a) (regByte b)) := by
  cases exec_case h with
  | cmp _ a b => exact .inl (exec_cmp (s.withFl f) a b)
  | jeqTaken | jeqNotTaken => exact absurd rfl hjeq
  | jneTaken | jneNotTaken => exact absurd rfl hjne
  | invalidRegister _ _ x hx =>
    refine .inr ⟨exec_of_invalidRegister ((invalidRegisterOf_withFl hjeq hjne s f).trans hx), ?_⟩
    rintro a b rfl
    simp [invalidRegisterOf] at hx
  | _ => exact .inr ⟨ExecCase.exec_eq (by constructor <;> assumption), by simp⟩

/-- Settles O26, from what an instruction writes to `fl` and what it does with another `fl`. -/
theorem onlyCompareWritesAndJumpsReadFlags : Obligations.OnlyCompareWritesAndJumpsReadFlags := by
  refine ⟨fun i s t => exec_fl, fun s t => step_fl, fun i s t f hjeq hjne h => ?_⟩
  obtain hu | ⟨hu, hcmp⟩ := exec_withFl hjeq hjne h f
  · exact ⟨t, hu, rfl, fun _ _ _ => rfl⟩
  · exact ⟨t.withFl f, hu, rfl, fun a b hi => absurd hi (hcmp a b)⟩

/-! ### Register access -/

section
variable (s : State)

@[simp] theorem State.withReg_withReg_same (j : Fin 8) (v w : Byte) :
    (s.withReg j v).withReg j w = s.withReg j w := by
  simp [State.withReg]

@[simp] theorem State.withReg_reg_self (j : Fin 8) : s.withReg j (s.reg j) = s := by
  simp [State.withReg, State.reg]

theorem State.withReg_reg_of_ne {a j : Fin 8} (h : j ≠ a) (v : Byte) : (s.withReg j v).reg a = s.reg a := by
  rw [State.withReg_reg, if_neg h.symm]

theorem State.withReg_comm {a j : Fin 8} (h : j ≠ a) (v w : Byte) :
    (s.withReg j v).withReg a w = (s.withReg a w).withReg j v := by
  simp only [State.withReg, Vector.set_comm v w (Fin.val_ne_of_ne h)]

theorem State.withReg_sp_of_ne {j : Fin 8} (h : j ≠ spIndex) (v : Byte) : (s.withReg j v).sp = s.sp := by
  rw [State.withReg_sp, if_neg h]

theorem State.withReg_decSp {j : Fin 8} (h : j ≠ spIndex) (v : Byte) :
    (s.withReg j v).decSp = s.decSp.withReg j v := by
  rw [State.decSp, s.withReg_sp_of_ne h, s.withReg_comm h, State.decSp]

theorem State.withReg_incSp {j : Fin 8} (h : j ≠ spIndex) (v : Byte) :
    (s.withReg j v).incSp = s.incSp.withReg j v := by
  rw [State.incSp, s.withReg_sp_of_ne h, s.withReg_comm h, State.incSp]

theorem State.withReg_pushAddr {j : Fin 8} (h : j ≠ spIndex) (v : Byte) :
    (s.withReg j v).pushAddr = s.pushAddr := by
  simp only [State.pushAddr_eq, s.withReg_sp_of_ne h]

end

/-- The columns of 10_state.md R13: an instruction leaves every register it does not write. -/
theorem exec_reg_of_not_written {i : Instr} {s t : State} {j : Fin 8} (h : exec i s = .next t)
    (hj : regByte j ∉ registersWritten i) : t.reg j = s.reg j := by
  cases exec_case h with
  | ldi _ a | add _ a | mul _ a =>
    have ha : j ≠ a := by simpa [registersWritten] using hj
    exact s.withReg_reg_of_ne ha.symm _
  | push | call | ret =>
    have hsp : j ≠ spIndex := by simpa [registersWritten] using hj
    exact s.withReg_reg_of_ne hsp.symm _
  | pop _ a =>
    obtain ⟨ha, hsp⟩ : j ≠ a ∧ j ≠ spIndex := by simpa [registersWritten] using hj
    exact (State.withReg_reg_of_ne _ hsp.symm _).trans (s.withReg_reg_of_ne ha.symm _)
  | _ => rfl

/-- LDI and POP are the only instructions that write a register they do not read. -/
theorem written_unread {i : Instr} {s : State} {j : Fin 8} (hw : regByte j ∈ registersWritten i)
    (hr : regByte j ∉ registersRead i s) :
    (∃ imm, i = .ldi (regByte j) imm) ∨ (i = .pop (regByte j) ∧ j ≠ spIndex) := by
  cases i with
  | ldi a imm => exact .inl ⟨imm, by simpa [registersWritten, eq_comm] using hw⟩
  | pop a =>
    have hsp : j ≠ spIndex := by simpa [registersRead] using hr
    exact .inr ⟨by simpa [registersWritten, hsp, eq_comm] using hw, hsp⟩
  | _ => simp_all [registersWritten, registersRead]

/-- With another value in a register it writes and does not read, an instruction answers the same state. -/
theorem exec_withReg_of_overwritten {i : Instr} {s t : State} {j : Fin 8} (h : exec i s = .next t)
    (hw : regByte j ∈ registersWritten i) (hr : regByte j ∉ registersRead i s) (v : Byte) :
    exec i (s.withReg j v) = .next t := by
  obtain ⟨imm, rfl⟩ | ⟨rfl, hsp⟩ := written_unread hw hr
  · rw [← h, exec_ldi, exec_ldi, s.withReg_withReg_same]
  · rw [← h, exec_pop, exec_pop, s.withReg_cell, s.withReg_sp_of_ne hsp, s.withReg_withReg_same]

/-- With another value in a register it neither reads nor writes, an instruction does the same and keeps
that value. -/
theorem exec_withReg_of_unused {i : Instr} {s t : State} {j : Fin 8} (h : exec i s = .next t)
    (hw : regByte j ∉ registersWritten i) (hr : regByte j ∉ registersRead i s) (v : Byte) :
    exec i (s.withReg j v) = .next (t.withReg j v) := by
  cases exec_case h with
  | ldi _ a imm =>
    have ha : j ≠ a := by simpa [registersWritten] using hw
    rw [exec_ldi, s.withReg_comm ha]
    rfl
  | add _ a b =>
    obtain ⟨ha, hb⟩ : j ≠ a ∧ j ≠ b := by simpa [registersRead] using hr
    rw [exec_add, s.withReg_comm ha, s.withReg_reg_of_ne ha, s.withReg_reg_of_ne hb]
    rfl
  | mul _ a b =>
    obtain ⟨ha, hb⟩ : j ≠ a ∧ j ≠ b := by simpa [registersRead] using hr
    rw [exec_mul, s.withReg_comm ha, s.withReg_reg_of_ne ha, s.withReg_reg_of_ne hb]
    rfl
  | cmp _ a b =>
    obtain ⟨ha, hb⟩ : j ≠ a ∧ j ≠ b := by simpa [registersRead] using hr
    rw [exec_cmp, s.withReg_reg_of_ne ha, s.withReg_reg_of_ne hb]
    rfl
  | jeqTaken _ a hf =>
    have ha : j ≠ a := by simpa [registersRead, hf] using hr
    rw [exec_jeq_taken (s.withReg j v) a hf, s.withReg_reg_of_ne ha]
    rfl
  | jeqNotTaken _ a hf => exact exec_jeq_not_taken (s.withReg j v) a hf
  | jneTaken _ a hf =>
    have ha : j ≠ a := by simpa [registersRead, hf] using hr
    rw [exec_jne_taken (s.withReg j v) a hf, s.withReg_reg_of_ne ha]
    rfl
  | jneNotTaken _ a hf => exact exec_jne_not_taken (s.withReg j v) a hf
  | jmp _ a =>
    have ha : j ≠ a := by simpa [registersRead] using hr
    rw [exec_jmp, s.withReg_reg_of_ne ha]
    rfl
  | push _ a =>
    obtain ⟨hsp, ha⟩ : j ≠ spIndex ∧ j ≠ a := by simpa [registersRead] using hr
    rw [exec_push, s.withReg_pushAddr hsp, s.withReg_decSp hsp, State.withReg_reg_of_ne _ ha]
    rfl
  | pop _ a =>
    obtain ⟨ha, hsp⟩ : j ≠ a ∧ j ≠ spIndex := by simpa [registersWritten] using hw
    rw [exec_pop, s.withReg_cell, s.withReg_sp_of_ne hsp, s.withReg_comm ha, State.withReg_incSp _ hsp]
    rfl
  | call _ a hpc =>
    obtain ⟨hsp, ha⟩ : j ≠ spIndex ∧ j ≠ a := by simpa [registersRead] using hr
    rw [exec_call (s.withReg j v) a hpc, s.withReg_pushAddr hsp, s.withReg_decSp hsp, State.withReg_reg_of_ne _ ha]
    rfl
  | ret =>
    have hsp : j ≠ spIndex := by simpa [registersRead] using hr
    rw [exec_ret, s.withReg_cell, s.withReg_sp_of_ne hsp, s.withReg_incSp hsp]
    rfl
  | prn _ a =>
    have ha : j ≠ a := by simpa [registersRead] using hr
    rw [exec_prn, s.withReg_reg_of_ne ha]
    rfl
  | hlt => exact exec_hlt (s.withReg j v)
  | unknown _ op => exact exec_unknown (s.withReg j v) op
  | invalidRegister _ _ x hx => exact (ExecCase.invalidRegister (s.withReg j v) i x hx).exec_eq
  | noReturnAddress _ a hpc => exact exec_call_no_return_address (s.withReg j v) a hpc

/-- Settles O19: a register that is not read is either overwritten with the value it gets in any case, or
carried along. -/
theorem registerAccessTable : Obligations.RegisterAccessTable := by
  refine ⟨fun i s t j => exec_reg_of_not_written, fun i s t j v h hr => ?_⟩
  by_cases hw : regByte j ∈ registersWritten i
  · exact ⟨t, exec_withReg_of_overwritten h hw hr v, t.withReg_reg_self j, fun _ => rfl, fun hn => absurd hw hn⟩
  · exact ⟨t.withReg j v, exec_withReg_of_unused h hw hr v, by simp, fun hy => absurd hy hw, fun _ => by simp⟩

end Sys2Proof.Machine

/-! Proofs about memory (20_memory.md): the read and write contracts. -/

namespace Sys2Proof.Machine

/-! ### A read after a write -/

/-- A read depends on the state only through the cell it reads. -/
theorem memRead_congr {a : Nat} {s t : State} (h : t.cell a = s.cell a) : memRead a t = memRead a s := by
  rw [memRead, memRead, h]

theorem memWrite_cell {addr : Nat} {v : Byte} {s t : State} (h : memWrite addr v s = .ok t) (a : Nat) :
    t.cell a = if a = addr then v else s.cell a := by
  obtain ⟨-, rfl⟩ := memWrite_ok h
  exact Memory.read_write s.mem addr a v

theorem memRead_memWrite_same {addr : Nat} {v : Byte} {s t : State} (h : memWrite addr v s = .ok t) :
    memRead addr t = .ok v := by
  rw [memRead_inside t (memWrite_ok h).1, memWrite_cell h, if_pos rfl]

theorem memRead_memWrite_of_ne {addr a : Nat} {v : Byte} {s t : State} (h : memWrite addr v s = .ok t)
    (ha : a ≠ addr) : memRead a t = memRead a s :=
  memRead_congr (by rw [memWrite_cell h, if_neg ha])

/-- What a write keeps besides the other cells: the registers, `pc`, `fl`, `run` and both streams. -/
theorem memWrite_frame {addr : Nat} {v : Byte} {s t : State} (h : memWrite addr v s = .ok t) :
    sameRegsBut [] s t ∧ t.pc = s.pc ∧ t.fl = s.fl ∧ t.run = s.run ∧ sameStreams s t := by
  obtain ⟨-, rfl⟩ := memWrite_ok h
  exact ⟨fun i _ => s.withMem_reg _ i, s.withMem_pc _, s.withMem_fl _, s.withMem_run _, s.withMem_out _, s.withMem_diag _⟩

/-- Settles O16, from what a write that succeeds changes and keeps, and the bounds check of each access. -/
theorem memoryContracts : Obligations.MemoryContracts := by
  refine ⟨fun addr v s ha => ?inside, fun addr s ha => memRead_inside s (by omega), fun addr v s ha =>
    ⟨memRead_outside s ha, memWrite_outside v s ha⟩⟩
  case inside =>
    have hw := memWrite_inside v s (show addr < 256 by omega)
    exact ⟨_, hw, memRead_memWrite_same hw, fun _ => memRead_memWrite_of_ne hw, memWrite_frame hw⟩

end Sys2Proof.Machine

/-! Proofs about LDI (41_load_immediate.md), from two facts that hold for every instruction: its bytes decode
back to it, and the fetch of an operand beyond the memory faults. -/

namespace Sys2Proof

/-! ### The bytes of an instruction -/

theorem encode_length (i : Instr) : (encode i).length = i.length := by
  cases i <;> rfl

/-- The decoder reads an instruction back from its own bytes, whatever follows them. -/
theorem decodeWith_encode {i : Instr} (h : i.wf = true) (rest : List Byte) :
    decodeWith (byteAt (encode i ++ rest)) = .ok i := by
  obtain ⟨op, operands, he, hm, hn⟩ := lookup_encode h
  have hi := assemble_encode he
  rw [← hm] at hi hn
  rw [he]
  match operands with
  | [] => rw [decodeWith_none rfl hn.symm, hi _ _ (by simp) (by simp)]
  | [_] => rw [decodeWith_one rfl hn.symm rfl, hi _ _ (by simp) (by simp)]
  | [_, _] => rw [decodeWith_two rfl hn.symm rfl rfl, hi _ _ (by simp) (by simp)]
  | _ :: _ :: _ :: _ =>
    have hle := (lookup op).operandCount_le
    simp only [List.length_cons] at hn
    omega

theorem decode_encode_append {i : Instr} (h : i.wf = true) (rest : List Byte) :
    decode (encode i ++ rest) = .ok (i, rest) := by
  have hdrop : (encode i ++ rest).drop i.length = rest := by rw [← encode_length, List.drop_left]
  simp [decode, decodeWith_encode h, hdrop, bind, Except.bind, pure, Except.pure]

end Sys2Proof

namespace Sys2Proof.Machine

theorem encodedAs_encode {i : Instr} (h : i.wf = true) : encodedAs i (encode i) :=
  ⟨rfl, (encode_length i).symm, decode_encode_append h⟩

/-! ### The operand fetch -/

/-- An opcode byte inside the memory with an operand byte outside it (40_interpreter_loop.md R73). -/
theorem fetch_operand_outside {s : State} (hpc : s.pc ≤ 255)
    (hend : 256 ≤ s.pc + (lookup (s.cell s.pc)).operandCount) : fetch s = .error (.outOfBounds 256) := by
  obtain ⟨i, -, -, hfit, hm, -⟩ | ⟨-, hout⟩ | ⟨hf, -, -⟩ := fetch_cases s
  · rw [Instr.length, hm] at hfit
    omega
  · omega
  · exact hf

/-- An opcode faults on its operand fetch from the first address at which its last operand byte is beyond
the memory. -/
theorem operandFetchFaultsFrom_of_operandCount {op : Byte} {lo : Nat} (h : 256 ≤ lo + (lookup op).operandCount) :
    operandFetchFaultsFrom op lo := by
  intro s hrun hlo hpc hop
  exact step_fetch_fault s hrun (fetch_operand_outside hpc (by rw [hop]; omega))

/-! ### LDI -/

/-- LDI of a valid register writes it, advances `pc` by 3 and leaves the rest of the state. -/
theorem exec_ldi_effect (a : Fin 8) (imm : Byte) (s : State) : ∃ t, exec (.ldi (regByte a) imm) s = .next t ∧
    t.reg a = imm ∧ sameRegsBut [a] s t ∧ t.pc = s.pc + 3 ∧ t.fl = s.fl ∧ t.run = s.run ∧ sameMemBut none s t ∧
    sameStreams s t := by
  refine ⟨_, exec_ldi s a imm, by simp, fun j hj => ?others, rfl, rfl, rfl, fun _ _ => rfl, rfl, rfl⟩
  case others =>
    have hja : a ≠ j := by simpa [eq_comm] using hj
    exact s.withReg_reg_of_ne hja imm

/-- Settles O20: the encoding, the effect, the invalid register and the operand fetch, a lemma for each. -/
theorem loadImmediateRule : Obligations.LoadImmediateRule :=
  ⟨fun _ _ => encodedAs_encode rfl, exec_ldi_effect, fun _ imm s => exec_ldi_invalid s imm,
    operandFetchFaultsFrom_of_operandCount (by decide)⟩

end Sys2Proof.Machine

/-! Proofs about the ALU (42_alu.md): the block's three operations, and ADD, MUL and CMP. Their results are the
laws' own (`exec_add`, `exec_mul`, `exec_cmp`); what is added here is the frame of a register write and the
second invalid index, each once for all who share it. -/

namespace Sys2Proof.Machine

/-! ### What a register write leaves -/

theorem sameRegsBut_withReg (a : Fin 8) (v : Byte) (s : State) : sameRegsBut [a] s (s.withReg a v) := by
  intro j hj
  have hja : a ≠ j := by simpa [eq_comm] using hj
  exact s.withReg_reg_of_ne hja v

/-- The frame of an instruction of three bytes that completes by writing one register. -/
theorem withReg_advance_frame (a : Fin 8) (v : Byte) (s : State) :
    sameRegsBut [a] s ((s.withReg a v).advance 3) ∧ ((s.withReg a v).advance 3).pc = s.pc + 3 ∧
      ((s.withReg a v).advance 3).fl = s.fl ∧ ((s.withReg a v).advance 3).run = s.run ∧
      sameMemBut none s ((s.withReg a v).advance 3) ∧ sameStreams s ((s.withReg a v).advance 3) :=
  ⟨sameRegsBut_withReg a v s, rfl, rfl, rfl, fun _ _ => rfl, rfl, rfl⟩

/-! ### The written value as a number (42_alu.md R91, R92) -/

theorem withReg_add_toNat (a : Fin 8) (v w : Byte) (s : State) :
    ((s.withReg a (v + w)).reg a).toNat = (v.toNat + w.toNat) % 256 := by
  rw [s.withReg_reg, if_pos rfl, BitVec.toNat_add]

theorem withReg_mul_toNat (a : Fin 8) (v w : Byte) (s : State) :
    ((s.withReg a (v * w)).reg a).toNat = (v.toNat * w.toNat) % 256 := by
  rw [s.withReg_reg, if_pos rfl, BitVec.toNat_mul]

/-! ### The ALU block -/

/-- Settles O21, from the equation of each selector. -/
theorem aluOperations : Obligations.AluOperations := by
  refine ⟨fun d r s => ?add, fun d r s => ?multiply, fun d r s => ?compare⟩
  case add =>
    exact ⟨_, aluApply_add s d r, withReg_add_toNat d _ _ s, sameRegsBut_withReg d _ s, rfl⟩
  case multiply =>
    exact ⟨_, aluApply_multiply s d r, withReg_mul_toNat d _ _ s, sameRegsBut_withReg d _ s, rfl⟩
  case compare =>
    exact ⟨_, aluApply_compare s d r, compareFlags_less_iff _ _, compareFlags_greater_iff _ _,
      compareFlags_equal_iff _ _, compareFlags_ne_none _ _, fun _ _ => rfl⟩

/-! ### ADD, MUL, CMP -/

/-- The second index is checked after the first, and faults when only it is invalid. -/
theorem exec_alu_invalid_src_of_le {a b : Byte} (s : State) (ha : a.toNat ≤ 7) (hb : 7 < b.toNat) (i : Instr)
    (hi : i = .add a b ∨ i = .mul a b ∨ i = .cmp a b) : exec i s = .next (raiseFault (.invalidRegister b) s) := by
  obtain ⟨r, rfl⟩ := regByte_of_valid ha
  exact exec_alu_invalid_src s r hb i hi

/-- Settles O23: the encoding, the effect, an invalid index at either place and the operand fetch. -/
theorem addRule : Obligations.AddRule :=
  ⟨fun _ _ => encodedAs_encode rfl,
    fun a b s => ⟨_, exec_add s a b, withReg_add_toNat a _ _ s, withReg_advance_frame a _ s⟩,
    fun _ b s h => exec_alu_invalid_dest s b h _ (.inl rfl),
    fun _ _ s ha hb => exec_alu_invalid_src_of_le s ha hb _ (.inl rfl),
    operandFetchFaultsFrom_of_operandCount (by decide)⟩

/-- Settles O24: as ADD, with the product. -/
theorem multiplyRule : Obligations.MultiplyRule :=
  ⟨fun _ _ => encodedAs_encode rfl,
    fun a b s => ⟨_, exec_mul s a b, withReg_mul_toNat a _ _ s, withReg_advance_frame a _ s⟩,
    fun _ b s h => exec_alu_invalid_dest s b h _ (.inr (.inl rfl)),
    fun _ _ s ha hb => exec_alu_invalid_src_of_le s ha hb _ (.inr (.inl rfl)),
    operandFetchFaultsFrom_of_operandCount (by decide)⟩

/-- Settles O25: as ADD, but `fl` is written (`compareFlags` is the comparison of R97) and no register. -/
theorem compareRule : Obligations.CompareRule :=
  ⟨fun _ _ => encodedAs_encode rfl,
    fun a b s => ⟨_, exec_cmp s a b, rfl, fun _ _ => rfl, rfl, rfl, fun _ _ => rfl, rfl, rfl⟩,
    fun _ b s h => exec_alu_invalid_dest s b h _ (.inr (.inr rfl)),
    fun _ _ s ha hb => exec_alu_invalid_src_of_le s ha hb _ (.inr (.inr rfl)),
    operandFetchFaultsFrom_of_operandCount (by decide)⟩

end Sys2Proof.Machine

/-! Proofs about the jumps (43_jumps.md): JEQ and JMP. Taken or not, a jump that completes writes `pc` alone, so
its frame is that of one update, shared by both. -/

namespace Sys2Proof.Machine

/-! ### What a write of `pc` leaves -/

/-- The frame of a jump, taken (`jumpTo`) or not (`advance`): both are a write of `pc`. -/
theorem withPc_frame (n : Nat) (s : State) :
    (s.withPc n).pc = n ∧ sameRegsBut [] s (s.withPc n) ∧ (s.withPc n).fl = s.fl ∧ (s.withPc n).run = s.run ∧
      sameMemBut none s (s.withPc n) ∧ sameStreams s (s.withPc n) :=
  ⟨rfl, fun _ _ => rfl, rfl, rfl, fun _ _ => rfl, rfl, rfl⟩

/-! ### JEQ -/

/-- Settles O29: the encoding, the jump, the advance whatever the operand byte, the invalid register when taken
and the operand fetch. -/
theorem jumpIfEqualRule : Obligations.JumpIfEqualRule :=
  ⟨fun _ => encodedAs_encode rfl,
    fun a s hf => ⟨_, exec_jeq_taken s a hf, withPc_frame (s.reg a).toNat s⟩,
    fun a s hf => ⟨_, exec_jeq_not_taken s a hf, withPc_frame (s.pc + 2) s⟩,
    fun _ s hf h => exec_jeq_invalid s h hf,
    operandFetchFaultsFrom_of_operandCount (by decide)⟩

/-! ### JMP -/

/-- JMP does not read `fl`: the jump and the fault both carry another value along (43_jumps.md R102). -/
theorem exec_jmp_withFl (a : Byte) (s : State) (f : Flags) :
    ∃ t u, exec (.jmp a) s = .next t ∧ exec (.jmp a) (s.withFl f) = .next u ∧ u = t.withFl f := by
  obtain ⟨r, rfl⟩ | h := operand_cases a
  · exact ⟨_, _, exec_jmp s r, exec_jmp (s.withFl f) r, rfl⟩
  · exact ⟨_, _, exec_jmp_invalid s h, exec_jmp_invalid (s.withFl f) h, rfl⟩

/-- Settles O31: the encoding, the jump, the invalid register, the independence of `fl` and the operand fetch. -/
theorem jumpRule : Obligations.JumpRule :=
  ⟨fun _ => encodedAs_encode rfl,
    fun a s => ⟨_, exec_jmp s a, withPc_frame (s.reg a).toNat s⟩,
    fun _ s h => exec_jmp_invalid s h,
    exec_jmp_withFl,
    operandFetchFaultsFrom_of_operandCount (by decide)⟩

end Sys2Proof.Machine

/-! Proofs about subroutine linkage (45_call_return.md): RET, and the fetch of an opcode without operands, which
any address of the memory can hold. -/

namespace Sys2Proof.Machine

/-! ### The fetch of an opcode without operands -/

/-- An opcode byte that takes no operands is fetched whole at every address of the memory, the last included
(40_interpreter_loop.md R73). -/
theorem fetch_of_no_operands {s : State} {op : Byte} (hpc : s.pc ≤ 255) (hop : s.cell s.pc = op)
    (hn : (lookup op).operandCount = 0) : fetch s = .ok (assemble (lookup op) op 0#8 0#8) := by
  have hread : memRead (s.pc + 0) s = .ok op := by rw [memRead_inside s (by omega), Nat.add_zero, hop]
  exact decodeWith_none hread hn

/-! ### RET -/

/-- RET jumps to the byte at the old `sp`, increments `sp` and leaves the rest of the state: the frame of a write
of R7, then that of a write of `pc`. -/
theorem exec_ret_effect (s : State) : ∃ t, exec .ret s = .next t ∧ t.pc = (s.cell s.sp.toNat).toNat ∧
    t.sp = s.sp + 1#8 ∧ sameRegsBut [spIndex] s t ∧ sameMemBut none s t ∧ t.fl = s.fl ∧ t.run = s.run ∧
    sameStreams s t :=
  ⟨_, exec_ret s, rfl, s.incSp_sp, sameRegsBut_withReg spIndex _ s, fun _ _ => rfl, rfl, rfl, rfl, rfl⟩

/-- A running machine executes RET wherever its opcode byte stands. -/
theorem step_ret {s : State} (hrun : s.run = .running) (hpc : s.pc ≤ 255) (hop : s.cell s.pc = 0x11#8) :
    step s = exec .ret s :=
  step_fetched s hrun (fetch_of_no_operands hpc hop rfl)

/-- Settles O37: the encoding, the effect and the fetch without a fault, a lemma for each. -/
theorem returnRule : Obligations.ReturnRule :=
  ⟨encodedAs_encode rfl, exec_ret_effect, fun _ => step_ret⟩

end Sys2Proof.Machine

/-! Proofs about output (46_print_halt.md): PRN. -/

namespace Sys2Proof.Machine

/-! ### PRN -/

/-- PRN of a valid register appends its value to `out`, advances `pc` by 2 and leaves the rest of the state:
`emit` and `advance` touch `out` and `pc` alone (46_print_halt.md R130). -/
theorem exec_prn_effect (a : Fin 8) (s : State) : ∃ t, exec (.prn (regByte a)) s = .next t ∧
    t.out = s.out ++ [⟨s.reg a⟩] ∧ t.diag = s.diag ∧ t.pc = s.pc + 2 ∧ sameRegsBut [] s t ∧ sameMemBut none s t ∧
    t.fl = s.fl ∧ t.run = s.run :=
  ⟨_, exec_prn s a, rfl, rfl, rfl, fun _ _ => rfl, fun _ _ => rfl, rfl, rfl⟩

/-- Settles O39: the encoding, the effect, the invalid register and the operand fetch, a lemma for each. -/
theorem printRule : Obligations.PrintRule :=
  ⟨fun _ => encodedAs_encode rfl, exec_prn_effect, fun _ s => exec_prn_invalid s,
    operandFetchFaultsFrom_of_operandCount (by decide)⟩

end Sys2Proof.Machine

/-! Proofs about the encoding (30_encoding.md): the decoder answers an instruction exactly when that instruction is
well formed and its bytes are the bytes read; both directions of the round trip follow. -/

namespace Sys2Proof

/-! ### The one decoder, both directions -/

section
variable {ε : Type} {read : Nat → Except ε Byte} {i : Instr}

/-- Everything a decoding that succeeds has read: the opcode byte and the operand bytes of its row. -/
theorem decodeWith_ok (h : decodeWith read = .ok i) : ∃ op opA opB, read 0 = .ok op ∧
    (1 ≤ (lookup op).operandCount → read 1 = .ok opA) ∧ ((lookup op).operandCount = 2 → read 2 = .ok opB) ∧
    i = assemble (lookup op) op opA opB := by
  cases h0 : read 0 with
  | error e => rw [decodeWith_no_opcode h0] at h; cases h
  | ok op =>
  have hle := (lookup op).operandCount_le
  by_cases hn0 : (lookup op).operandCount = 0
  · rw [decodeWith_none h0 hn0, Except.ok.injEq] at h
    exact ⟨op, 0#8, 0#8, rfl, by omega, by omega, h.symm⟩
  cases hA : read 1 with
  | error e => rw [decodeWith_no_first h0 (by omega) hA] at h; cases h
  | ok opA =>
  by_cases hn1 : (lookup op).operandCount = 1
  · rw [decodeWith_one h0 hn1 hA, Except.ok.injEq] at h
    exact ⟨op, opA, 0#8, rfl, fun _ => rfl, by omega, h.symm⟩
  have hn2 : (lookup op).operandCount = 2 := by omega
  cases hB : read 2 with
  | error e => rw [decodeWith_no_second h0 hn2 hA hB] at h; cases h
  | ok opB =>
  rw [decodeWith_two h0 hn2 hA hB, Except.ok.injEq] at h
  exact ⟨op, opA, opB, rfl, fun _ => rfl, fun _ => rfl, h.symm⟩

/-- Every byte of a decoded instruction is the byte read at its offset. -/
theorem read_of_decodeWith (h : decodeWith read = .ok i) {k : Nat} {b : Byte} (hk : (encode i)[k]? = some b) :
    read k = .ok b := by
  obtain ⟨op, opA, opB, h0, hA, hB, rfl⟩ := decodeWith_ok h
  rw [encode_assemble, List.getElem?_take] at hk
  match k with
  | 0 => simpa [h0] using hk
  | 1 =>
    obtain ⟨hn, rfl⟩ : 0 < (lookup op).operandCount ∧ opA = b := by simpa using hk
    exact hA hn
  | 2 =>
    obtain ⟨hn, rfl⟩ : 2 ≤ (lookup op).operandCount ∧ opB = b := by simpa [Nat.lt_one_add_iff] using hk
    exact hB (Nat.le_antisymm (Mnemonic.operandCount_le _) hn)
  | k + 3 => simp at hk

theorem wf_of_decodeWith (h : decodeWith read = .ok i) : i.wf = true := by
  obtain ⟨op, opA, opB, -, -, -, rfl⟩ := decodeWith_ok h
  exact assemble_wf op opA opB

/-- A reader that gives the bytes of a well-formed instruction decodes to it. -/
theorem decodeWith_of_encode (h : i.wf = true) (hr : ∀ k b, (encode i)[k]? = some b → read k = .ok b) :
    decodeWith read = .ok i := by
  obtain ⟨op, operands, he, hm, hn⟩ := lookup_encode h
  have hi := assemble_encode he
  rw [← hm] at hi hn
  rw [he] at hr
  match operands with
  | [] => rw [decodeWith_none (hr 0 op rfl) hn.symm, hi _ _ (by simp) (by simp)]
  | [opA] => rw [decodeWith_one (hr 0 op rfl) hn.symm (hr 1 opA rfl), hi _ _ (by simp) (by simp)]
  | [opA, opB] =>
    rw [decodeWith_two (hr 0 op rfl) hn.symm (hr 1 opA rfl) (hr 2 opB rfl), hi _ _ (by simp) (by simp)]
  | _ :: _ :: _ :: _ =>
    have hle := (lookup op).operandCount_le
    simp only [List.length_cons] at hn
    omega

/-- What the decoder answers, in full: the well-formed instruction whose bytes are those read. -/
theorem decodeWith_eq_ok_iff : decodeWith read = .ok i ↔
    i.wf = true ∧ ∀ k b, (encode i)[k]? = some b → read k = .ok b :=
  ⟨fun h => ⟨wf_of_decodeWith h, fun _ _ => read_of_decodeWith h⟩, fun ⟨hwf, hr⟩ => decodeWith_of_encode hwf hr⟩

end

/-! ### The decoder of a list of bytes -/

theorem byteAt_eq_ok_iff {bytes : List Byte} {k : Nat} {b : Byte} : byteAt bytes k = .ok b ↔ bytes[k]? = some b := by
  rw [byteAt]
  split <;> simp [*]

theorem decode_of_decodeWith {bytes : List Byte} {i : Instr} (h : decodeWith (byteAt bytes) = .ok i) :
    decode bytes = .ok (i, bytes.drop i.length) := by
  simp [decode, h, bind, Except.bind, pure, Except.pure]

theorem decode_error {bytes : List Byte} {e : DecodeError} (h : decodeWith (byteAt bytes) = .error e) :
    decode bytes = .error e := by
  simp [decode, h, bind, Except.bind]

/-- The inversion of `decode`. -/
theorem decode_ok {bytes rest : List Byte} {i : Instr} (h : decode bytes = .ok (i, rest)) :
    decodeWith (byteAt bytes) = .ok i ∧ rest = bytes.drop i.length := by
  cases hi : decodeWith (byteAt bytes) with
  | error e => rw [decode_error hi] at h; cases h
  | ok j =>
    rw [decode_of_decodeWith hi, Except.ok.injEq, Prod.mk.injEq] at h
    obtain ⟨rfl, hrest⟩ := h
    exact ⟨rfl, hrest.symm⟩

/-- A list that decodes begins with the bytes of the instruction. -/
theorem getElem?_of_decode {bytes rest : List Byte} {i : Instr} (h : decode bytes = .ok (i, rest)) {k : Nat} {b : Byte}
    (hk : (encode i)[k]? = some b) : bytes[k]? = some b :=
  byteAt_eq_ok_iff.mp (read_of_decodeWith (decode_ok h).1 hk)

theorem encode_append_of_decode {bytes rest : List Byte} {i : Instr} (h : decode bytes = .ok (i, rest)) :
    encode i ++ rest = bytes := by
  refine List.ext_getElem? fun k => ?_
  rcases Nat.lt_or_ge k (encode i).length with hk | hk
  · rw [List.getElem?_append_left hk, List.getElem?_eq_getElem hk,
      getElem?_of_decode h (List.getElem?_eq_getElem hk)]
  · rw [List.getElem?_append_right hk, (decode_ok h).2, List.getElem?_drop, ← encode_length, Nat.add_sub_cancel' hk]

/-- Settles O5: the decoder reads exactly the bytes of the instruction. -/
theorem decodeOfEncode : Obligations.DecodeOfEncode :=
  fun _ rest hwf => decode_encode_append hwf rest

/-- Settles O6, the converse: every byte of what was decoded is the byte at its place in the list. -/
theorem encodeOfDecode : Obligations.EncodeOfDecode :=
  fun _ _ _ h => ⟨wf_of_decodeWith (decode_ok h).1, encode_append_of_decode h⟩

/-- With all its operand bytes present an opcode byte decodes to an instruction of its row. -/
theorem decode_cons_ok {op : Byte} {operands : List Byte} (h : (lookup op).operandCount ≤ operands.length) :
    ∃ i, decode (op :: operands) = .ok (i, operands.drop (lookup op).operandCount) ∧ i.mnemonic = lookup op := by
  have answers {opA opB : Byte} (hi : decodeWith (byteAt (op :: operands)) = .ok (assemble (lookup op) op opA opB)) :
      ∃ i, decode (op :: operands) = .ok (i, operands.drop (lookup op).operandCount) ∧ i.mnemonic = lookup op :=
    ⟨_, by rw [decode_of_decodeWith hi, Instr.length, assemble_mnemonic, Nat.add_comm, List.drop_succ_cons],
      assemble_mnemonic _ _ _ _⟩
  have hle := (lookup op).operandCount_le
  have hop : byteAt (op :: operands) 0 = .ok op := rfl
  match hn : (lookup op).operandCount, operands with
  | 0, _ => exact hn ▸ answers (decodeWith_none hop hn)
  | 1, opA :: _ => exact hn ▸ answers (decodeWith_one hop hn rfl)
  | 2, opA :: opB :: _ => exact hn ▸ answers (decodeWith_two hop hn rfl rfl)
  | 1, [] | 2, [] | 2, [_] => simp [hn] at h
  | n + 3, _ => omega

/-- Settles O7: the decoder stops at the first byte it needs and does not find. -/
theorem decodeFailsOnlyWhenBytesRunOut : Obligations.DecodeFailsOnlyWhenBytesRunOut := by
  refine ⟨rfl, fun op operands => ⟨decode_cons_ok, fun hn hlen => ?first, fun hn hlen => ?second⟩⟩
  case first =>
    obtain rfl := List.length_eq_zero_iff.mp hlen
    exact decode_error (decodeWith_no_first rfl hn rfl)
  case second =>
    obtain ⟨opA, rfl⟩ := List.length_eq_one_iff.mp hlen
    have hle := (lookup op).operandCount_le
    exact decode_error (decodeWith_no_second (op := op) rfl (by omega) rfl rfl)

/-! ### The opcode table -/

/-- Settles O8: 13 rows are compared with one another, and a byte of none of them takes the default row. -/
theorem opcodeTableIsUnambiguous : Obligations.OpcodeTableIsUnambiguous := by
  refine ⟨rfl, by decide, by decide, fun op h => ?default⟩
  case default =>
    have hnone : opcodeTable.lookup op = none :=
      List.lookup_eq_none_iff.mpr fun p hp => bne_iff_ne.mpr (h p hp).symm
    rw [lookup, hnone, Option.getD_none]

/-- Settles O9: each word is the encoding of its instruction, with what follows it. -/
theorem sampleWordsDecode : Obligations.SampleWordsDecode :=
  ⟨decode_encode_append (i := .ldi 0x00#8 0x08#8) rfl [], decode_encode_append (i := .cmp 0x01#8 0x02#8) rfl [],
    decode_encode_append (i := .jne 0x03#8) rfl [], decode_encode_append (i := .push 0x07#8) rfl [],
    decode_encode_append (i := .call 0x01#8) rfl [], decode_encode_append (i := .ret) rfl [0x82#8],
    decode_encode_append (i := .prn 0x09#8) rfl [], decode_encode_append (i := .unknown 0x00#8) rfl [0x01#8]⟩

end Sys2Proof

/-! Proofs about reset and the program load (70_reset_and_hazards.md), and about the step (40_interpreter_loop.md):
when there is one, and what it fetches. -/

namespace Sys2Proof.Machine

/-! ### Reset -/

theorem resetWith_reg (sp : Byte) (i : Fin 8) : (State.resetWith sp).reg i = if i = spIndex then sp else 0x00#8 := by
  fin_cases i <;> rfl

theorem resetWith_inv (sp : Byte) : (State.resetWith sp).Inv := ⟨Memory.nil_wf, Nat.zero_le 256⟩

/-- Settles O1: the fields of the reset value. -/
theorem resetMemoryPcRun : Obligations.ResetMemoryPcRun :=
  ⟨fun _ a _ => Memory.read_nil a, fun _ => ⟨rfl, rfl⟩, rfl⟩

/-- Settles O2: the fields of the reset value. -/
theorem resetRegistersFlagsStreams : Obligations.ResetRegistersFlagsStreams :=
  ⟨resetWith_reg, fun _ => ⟨rfl, rfl, rfl⟩, rfl⟩

/-- Settles O3: memory is the empty list of cells, which is canonical. -/
theorem resetHasInvariant : Obligations.ResetHasInvariant :=
  ⟨resetWith_inv Config.spReset, resetWith_inv⟩

/-! ### Load -/

theorem loadFrom_cons {b : Byte} {bs : List Byte} {a : Nat} {s t : State} (h : memWrite a b s = .ok t) :
    loadFrom (b :: bs) a s = loadFrom bs (a + 1) t := by
  simp [loadFrom, h, bind, Except.bind]

theorem loadFrom_cons_error {b : Byte} {bs : List Byte} {a : Nat} {s : State} {k : FaultKind}
    (h : memWrite a b s = .error k) : loadFrom (b :: bs) a s = .error k := by
  simp [loadFrom, h, bind, Except.bind]

/-- Bytes that fit above a are written to a, a + 1, …, and the load changes nothing but memory. -/
theorem loadFrom_fits {bytes : List Byte} {a : Nat} (s : State) (hfit : a + bytes.length ≤ 256) :
    ∃ m, loadFrom bytes a s = .ok (s.withMem m) ∧ (∀ k b, bytes[k]? = some b → Memory.read m (a + k) = b) ∧
      (∀ x, x < a ∨ a + bytes.length ≤ x → Memory.read m x = s.cell x) ∧ (s.mem.wf = true → m.wf = true) := by
  induction bytes generalizing a s with
  | nil => exact ⟨s.mem, rfl, by simp, fun _ _ => rfl, id⟩
  | cons b bs ih =>
    have ha : a < 256 := by simp at hfit; omega
    obtain ⟨m, hload, hbytes, hothers, hwf⟩ :=
      ih (a := a + 1) (s.withMem (Memory.write s.mem a b)) (by simp at hfit; omega)
    refine ⟨m, (loadFrom_cons (memWrite_inside b s ha)).trans hload, fun k c hk => ?_, fun x hx => ?_,
      fun h => hwf (Memory.write_wf b h ha)⟩
    · match k with
      | 0 =>
        obtain rfl : b = c := by simpa using hk
        rw [hothers (a + 0) (by omega)]
        simp
      | k + 1 => rw [← hbytes k c (by simpa using hk), Nat.add_assoc, Nat.add_comm 1]
    · have hxa : x ≠ a := by simp at hx; omega
      rw [hothers x (by simp at hx; omega), State.withMem_cell, Memory.read_write, if_neg hxa]
      rfl

/-- A load that runs past the memory raises at the first address outside it. -/
theorem loadFrom_overlong {bytes : List Byte} {a : Nat} (s : State) (ha : a ≤ 256) (hlong : 256 < a + bytes.length) :
    loadFrom bytes a s = .error (.outOfBounds 256) := by
  induction bytes generalizing a s with
  | nil => simp at hlong; omega
  | cons b bs ih =>
    rcases Nat.lt_or_eq_of_le ha with hlt | rfl
    · rw [loadFrom_cons (memWrite_inside b s hlt)]
      exact ih _ hlt (by simp at hlong; omega)
    · exact loadFrom_cons_error (memWrite_outside b s (Nat.le_refl 256))

/-- Settles O4, from the load at address 0. -/
theorem loadPlacesProgram : Obligations.LoadPlacesProgram := by
  refine ⟨fun bytes s hlen => ?fits, fun bytes s hlen => loadFrom_overlong s (by decide) (by simpa [Config.loadBase])⟩
  case fits =>
    obtain ⟨m, hload, hbytes, hothers, hwf⟩ := loadFrom_fits (bytes := bytes) (a := 0) s (by simpa)
    exact ⟨s.withMem m, hload, fun k b hk => by simpa using hbytes k b hk, fun x hx => hothers x (by simp [hx]),
      fun _ _ => rfl, rfl, rfl, rfl, ⟨rfl, rfl⟩, fun ⟨hm, hpc⟩ => ⟨hwf hm, hpc⟩⟩

/-! ### The fetch -/

/-- The instruction a fetch answers, in full. -/
theorem fetch_eq_ok_iff {s : State} {i : Instr} : fetch s = .ok i ↔
    i.wf = true ∧ ∀ k b, (encode i)[k]? = some b → memRead (s.pc + k) s = .ok b :=
  decodeWith_eq_ok_iff

theorem fetch_opcode_outside {s : State} (hpc : 256 ≤ s.pc) : fetch s = .error (.outOfBounds s.pc) :=
  decodeWith_no_opcode (memRead_outside s hpc)

theorem lt_length_of_encode {i : Instr} {k : Nat} {b : Byte} (h : (encode i)[k]? = some b) : k < i.length := by
  rw [← encode_length]
  exact (List.getElem?_eq_some_iff.mp h).1

/-- A machine whose memory holds the bytes of an instruction from `pc` on fetches it. -/
theorem fetch_of_decode {s : State} {bytes rest : List Byte} {i : Instr} (h : decode bytes = .ok (i, rest))
    (hmem : ∀ k b, k < i.length → bytes[k]? = some b → memRead (s.pc + k) s = .ok b) : fetch s = .ok i :=
  fetch_eq_ok_iff.mpr ⟨wf_of_decodeWith (decode_ok h).1,
    fun k b hk => hmem k b (lt_length_of_encode hk) (getElem?_of_decode h hk)⟩

/-! ### The step -/

/-- Settles O10, from the fetch of the decoded bytes. -/
theorem stepRunsDecodedInstruction : Obligations.StepRunsDecodedInstruction :=
  fun s _ _ _ hrun h hmem => step_fetched s hrun (fetch_of_decode h hmem)

/-- Settles O11: a running machine executes the instruction it fetched or takes the fault of the fetch. -/
theorem stepExistsExactlyWhenRunning : Obligations.StepExistsExactlyWhenRunning := by
  refine fun s => ⟨fun ⟨t, h⟩ => (step_cases s h).1, fun hrun => ?_⟩
  cases hf : fetch s with
  | ok i => exact step_fetched s hrun hf ▸ exec_answers s i
  | error k => exact ⟨_, step_fetch_fault s hrun hf⟩

/-- Settles O12, from the two terminal branches of the step. -/
theorem terminalStatesStopByName : Obligations.TerminalStatesStopByName :=
  ⟨fun s hrun => by rw [step, hrun], fun s k hrun => by rw [step, hrun]⟩

/-- Settles O13: the opcode fetch outside the memory, and the advance from its last address. -/
theorem fetchPastMemoryFaults : Obligations.FetchPastMemoryFaults :=
  ⟨fun s hrun hpc => step_fetch_fault s hrun (fetch_opcode_outside hpc),
    fun s op hpc => ⟨_, exec_unknown s op, congrArg (· + 1) hpc⟩⟩

/-- Settles O14: the operand fetch that faults, or the instruction fetched whole. -/
theorem operandFetch : Obligations.OperandFetch := by
  refine fun s hrun hpc => ⟨fun hend => step_fetch_fault s hrun (fetch_operand_outside hpc hend), fun hend => ?_⟩
  obtain ⟨i, hi, hwf, -, hm, hbytes⟩ | ⟨-, hout⟩ | ⟨-, -, hout⟩ := fetch_cases s
  · exact ⟨i, hwf, hm, step_fetched s hrun hi, hbytes⟩
  · omega
  · rw [State.operandsHere] at hend
    omega

end Sys2Proof.Machine

/-! Proofs about the stack and the linkage (44_stack.md, 45_call_return.md, 20_memory.md section 11): PUSH, POP, CALL,
their round trips, and repeated pushes. -/

namespace Sys2Proof.Machine

/-! ### The push that PUSH and CALL share -/

/-- The value of Ra after the decrement of `sp`, with R7 at address x: what a PUSH of Ra stores there. -/
def State.regAtPush (a : Fin 8) (x : Byte) (s : State) : Byte := if a = spIndex then x else s.reg a

theorem State.decSp_reg_eq (a : Fin 8) (s : State) : s.decSp.reg a = s.regAtPush a (s.sp - 1#8) := s.decSp_reg a

/-- The state after v is stored at the decremented `sp`, before `pc` moves. -/
def State.pushed (v : Byte) (s : State) : State := s.decSp.withMem (Memory.write s.mem s.pushAddr v)

@[simp] theorem State.pushed_cell (v : Byte) (s : State) (x : Nat) :
    (s.pushed v).cell x = if x = s.pushAddr then v else s.cell x :=
  Memory.read_write s.mem s.pushAddr x v

theorem State.pushed_cell_pushAddr (v : Byte) (s : State) : (s.pushed v).cell s.pushAddr = v := by simp

/-- The frame of a push: R7 and the cell at the push address change, whatever becomes of `pc`. -/
theorem pushed_withPc_frame (v : Byte) (n : Nat) (s : State) :
    sameRegsBut [spIndex] s ((s.pushed v).withPc n) ∧ sameMemBut (some s.pushAddr) s ((s.pushed v).withPc n) ∧
      ((s.pushed v).withPc n).fl = s.fl ∧ ((s.pushed v).withPc n).run = s.run ∧
      sameStreams s ((s.pushed v).withPc n) := by
  refine ⟨sameRegsBut_withReg spIndex _ s, fun x hx => ?_, rfl, rfl, rfl, rfl⟩
  have hne : x ≠ s.pushAddr := fun h => hx (congrArg some h.symm)
  rw [State.withPc_cell, State.pushed_cell, if_neg hne]

/-! ### PUSH -/

/-- The state after a PUSH of Ra. -/
def State.afterPush (a : Fin 8) (s : State) : State := (s.pushed (s.regAtPush a (s.sp - 1#8))).advance 2

theorem exec_push_eq (a : Fin 8) (s : State) : exec (.push (regByte a)) s = .next (s.afterPush a) := by
  rw [exec_push, State.decSp_reg_eq]
  rfl

@[simp] theorem State.afterPush_reg (a : Fin 8) (s : State) (j : Fin 8) : (s.afterPush a).reg j = s.decSp.reg j := rfl

@[simp] theorem State.afterPush_sp (a : Fin 8) (s : State) : (s.afterPush a).sp = s.sp - 1#8 := s.decSp_sp

theorem State.afterPush_cell (a : Fin 8) (s : State) (x : Nat) :
    (s.afterPush a).cell x = if x = (s.sp - 1#8).toNat then s.regAtPush a (s.sp - 1#8) else s.cell x := by
  rw [← s.pushAddr_eq]
  exact s.pushed_cell _ x

theorem exec_push_effect (a : Fin 8) (s : State) : ∃ t, exec (.push (regByte a)) s = .next t ∧ t.sp = s.sp - 1#8 ∧
    s.pushAddr = (s.sp - 1#8).toNat ∧ t.cell s.pushAddr = (if a = spIndex then s.sp - 1#8 else s.reg a) ∧
    sameRegsBut [spIndex] s t ∧ sameMemBut (some s.pushAddr) s t ∧ t.pc = s.pc + 2 ∧ t.fl = s.fl ∧
    t.run = s.run ∧ sameStreams s t := by
  obtain ⟨hregs, hmem, hframe⟩ := pushed_withPc_frame (s.regAtPush a (s.sp - 1#8)) (s.pc + 2) s
  exact ⟨_, exec_push_eq a s, s.afterPush_sp a, s.pushAddr_eq, s.pushed_cell_pushAddr _, hregs, hmem, rfl, hframe⟩

/-- Settles O33: the encoding, the effect, the invalid register and the operand fetch. -/
theorem pushRule : Obligations.PushRule :=
  ⟨fun _ => encodedAs_encode rfl, exec_push_effect, fun _ s => exec_push_invalid s,
    operandFetchFaultsFrom_of_operandCount (by decide)⟩

/-! ### POP -/

/-- POP of a valid register: the write of Ra, then the increment of `sp`, which sees what was popped into R7. -/
theorem exec_pop_effect (a : Fin 8) (s : State) : ∃ t, exec (.pop (regByte a)) s = .next t ∧
    (a ≠ spIndex → t.reg a = s.cell s.sp.toNat ∧ t.sp = s.sp + 1#8) ∧
    (a = spIndex → t.sp = s.cell s.sp.toNat + 1#8) ∧
    sameRegsBut [a, spIndex] s t ∧ sameMemBut none s t ∧ t.pc = s.pc + 2 ∧ t.fl = s.fl ∧ t.run = s.run ∧
    sameStreams s t := by
  refine ⟨_, exec_pop s a, fun ha => ⟨by simp [ha], by simp [s.withReg_sp_of_ne ha]⟩, fun ha => ?sp, fun j hj => ?regs,
    fun _ _ => rfl, rfl, rfl, rfl, rfl, rfl⟩
  case sp => simp [ha, State.withReg_sp]
  case regs =>
    obtain ⟨ha, hsp⟩ : j ≠ a ∧ j ≠ spIndex := by simpa using hj
    exact (State.withReg_reg_of_ne _ hsp.symm _).trans (s.withReg_reg_of_ne ha.symm _)

/-- Settles O34: the encoding, the effect, the invalid register and the operand fetch. -/
theorem popRule : Obligations.PopRule :=
  ⟨fun _ => encodedAs_encode rfl, exec_pop_effect, fun _ s => exec_pop_invalid s,
    operandFetchFaultsFrom_of_operandCount (by decide)⟩

/-- The increment of a POP undoes the decrement of the PUSH, and Ra gets back what was stored, R7 included. -/
theorem afterPush_pop_reg (a j : Fin 8) (s : State) :
    ((((s.afterPush a).withReg a (s.regAtPush a (s.sp - 1#8))).incSp).advance 2).reg j = s.reg j := by
  by_cases hj : j = spIndex
  · by_cases ha : a = spIndex <;> simp [hj, ha, State.withReg_sp, State.regAtPush]
  · by_cases ha : j = a
    · simp [← ha, hj, State.regAtPush]
    · simp [hj, ha]

/-- A POP after a PUSH of the same register reads the cell the PUSH stored to. -/
theorem exec_pop_afterPush (a : Fin 8) (s : State) : exec (.pop (regByte a)) (s.afterPush a) =
    .next ((((s.afterPush a).withReg a (s.regAtPush a (s.sp - 1#8))).incSp).advance 2) := by
  rw [exec_pop, State.afterPush_sp, State.afterPush_cell, if_pos rfl]

/-- Settles O35: the two effects one after the other. -/
theorem pushThenPopRoundTrip : Obligations.PushThenPopRoundTrip := by
  intro a s
  obtain ⟨-, hmem, hframe⟩ := pushed_withPc_frame (s.regAtPush a (s.sp - 1#8)) (s.pc + 2) s
  exact ⟨_, _, exec_push_eq a s, exec_pop_afterPush a s, fun j _ => afterPush_pop_reg a j s, s.pushed_cell_pushAddr _,
    hmem, rfl, hframe⟩

/-! ### CALL and RET -/

theorem exec_call_eq (a : Fin 8) {s : State} (hpc : s.pc ≤ 253) : exec (.call (regByte a)) s =
    .next ((s.pushed (BitVec.ofNat 8 (s.pc + 2))).jumpTo (s.regAtPush a (s.sp - 1#8))) := by
  rw [exec_call s a hpc, State.decSp_reg_eq]
  rfl

/-- The return address of a CALL that has one loses nothing as a byte (45_call_return.md R120). -/
theorem returnAddress_toNat {s : State} (hpc : s.pc ≤ 253) : (BitVec.ofNat 8 (s.pc + 2)).toNat = s.pc + 2 :=
  Nat.mod_eq_of_lt (by omega)

theorem exec_call_effect (a : Fin 8) (s : State) (hpc : s.pc ≤ 253) : ∃ t, exec (.call (regByte a)) s = .next t ∧
    t.sp = s.sp - 1#8 ∧ s.pushAddr = (s.sp - 1#8).toNat ∧ (t.cell s.pushAddr).toNat = s.pc + 2 ∧
    t.pc = (if a = spIndex then s.sp - 1#8 else s.reg a).toNat ∧ sameRegsBut [spIndex] s t ∧
    sameMemBut (some s.pushAddr) s t ∧ t.fl = s.fl ∧ t.run = s.run ∧ sameStreams s t := by
  refine ⟨_, exec_call_eq a hpc, s.decSp_sp, s.pushAddr_eq, ?back, rfl, pushed_withPc_frame _ _ s⟩
  case back => rw [State.jumpTo_cell, State.pushed_cell_pushAddr, returnAddress_toNat hpc]

/-- Settles O36: the encoding, the effect, the invalid register, the missing return address and the operand fetch. -/
theorem callRule : Obligations.CallRule :=
  ⟨fun _ => encodedAs_encode rfl, exec_call_effect, fun _ s => exec_call_invalid s,
    fun a s => exec_call_no_return_address s a, operandFetchFaultsFrom_of_operandCount (by decide)⟩

/-- Settles O38: RET reads the saved cell, which holds the return address, and increments `sp` back. -/
theorem callThenReturn : Obligations.CallThenReturn := by
  intro a s hpc
  obtain ⟨t, ht, hsp, haddr, hback, -⟩ := exec_call_effect a s hpc
  refine ⟨t, ht, fun u husp hucell => ?_⟩
  obtain ⟨v, hv, hvpc, hvsp, hregs, -, hfl, -⟩ := exec_ret_effect u
  rw [husp, hsp] at hvsp hvpc
  exact ⟨v, hv, by rw [hvpc, ← haddr, hucell, hback], by simpa using hvsp, hregs, hfl⟩

/-! ### Repeated pushes -/

theorem execTimes_succ {i : Instr} {s t : State} (n : Nat) (h : exec i s = .next t) :
    execTimes i (n + 1) s = execTimes i n t := by
  rw [execTimes, h]

/-- After n pushes of Ra the cells of the n addresses below the old `sp`, counted round the memory, hold the pushed
value, and the others are as they were. The address x is number `(s.sp - 1 - x).toNat` of them, so one push moves the
count of every other address down by one. -/
theorem execTimes_push (a : Fin 8) (n : Nat) (s : State) : ∃ t, execTimes (.push (regByte a)) n s = .next t ∧
    t.sp = s.sp - BitVec.ofNat 8 n ∧
    ∀ x : Byte, t.cell x.toNat = if (s.sp - 1#8 - x).toNat < n then s.regAtPush a x else s.cell x.toNat := by
  induction n generalizing s with
  | zero => exact ⟨s, rfl, by simp, fun x => by simp⟩
  | succ n ih =>
    obtain ⟨t, ht, hsp, hcell⟩ := ih (s.afterPush a)
    refine ⟨t, (execTimes_succ n (exec_push_eq a s)).trans ht, ?sp, fun x => ?cell⟩
    case sp =>
      rw [hsp, State.afterPush_sp]
      bv_omega
    case cell =>
      have hvalue : (s.afterPush a).regAtPush a x = s.regAtPush a x := by
        by_cases ha : a = spIndex <;> simp [State.regAtPush, ha]
      rw [hcell, hvalue, State.afterPush_sp, State.afterPush_cell]
      by_cases hx : x = s.sp - 1#8
      · simp [hx]
      · have hne : x.toNat ≠ (s.sp - 1#8).toNat := fun h => hx (BitVec.eq_of_toNat_eq h)
        have hcount : (s.sp - 1#8 - 1#8 - x).toNat + 1 = (s.sp - 1#8 - x).toNat := by bv_omega
        simp only [if_neg hne, ← hcount, Nat.add_lt_add_iff_right]

/-- Settles O17: the arithmetic of `sp`, and after 256 pushes the count of every address is below 256. -/
theorem stackPointerWraps : Obligations.StackPointerWraps := by
  refine ⟨fun s => ⟨?dec, ?inc⟩, fun s v => ⟨⟨_, loadTop_eq s⟩, _, storeTop_eq v s⟩, fun a n s => ?pushes,
    fun a s => ?round⟩
  case dec => rw [State.decSp_sp]; bv_omega
  case inc => rw [State.incSp_sp]; bv_omega
  case pushes =>
    obtain ⟨t, ht, hsp, -⟩ := execTimes_push a n s
    refine ⟨t, ht, ?_⟩
    rw [hsp, BitVec.toNat_sub, BitVec.toNat_ofNat]
    omega
  case round =>
    obtain ⟨t, ht, hsp, hcell⟩ := execTimes_push a 256 s
    refine ⟨t, ht, by simpa using hsp, fun x hx => ?_⟩
    have hx : (BitVec.ofNat 8 x).toNat = x := Nat.mod_eq_of_lt (by omega)
    have hall := hcell (BitVec.ofNat 8 x)
    rw [hx, if_pos (BitVec.isLt _)] at hall
    exact hall

/-! ### The stored byte and a later fetch -/

/-- An instruction that raises InvalidRegister stores nothing. -/
theorem storedByte_of_invalidRegister {i : Instr} {s : State} {x : Byte} (hx : invalidRegisterOf i s = some x) :
    storedByte i s = none := by
  cases i with
  | push a | call a =>
    have ha : 7 < a.toNat := by by_contra ha; simp [invalidRegisterOf, ha] at hx
    simp [storedByte, Nat.not_lt.mpr (Nat.succ_le_of_lt ha)]
  | _ => rfl

/-- What the table of 20_memory.md R33 says is stored is in the cell at the push address afterwards. -/
theorem exec_stored {i : Instr} {s t : State} {v : Byte} (hv : storedByte i s = some v) (h : exec i s = .next t) :
    t.cell s.pushAddr = v := by
  cases exec_case h with
  | push _ a =>
    obtain rfl : s.decSp.reg a = v := by simpa [storedByte] using hv
    exact s.pushed_cell_pushAddr _
  | call _ a hpc =>
    obtain rfl : BitVec.ofNat 8 (s.pc + 2) = v := by simpa [storedByte, hpc] using hv
    exact s.pushed_cell_pushAddr _
  | noReturnAddress _ a hpc =>
    simp [storedByte] at hv
    omega
  | invalidRegister _ _ x hx => exact absurd hv (by simp [storedByte_of_invalidRegister hx])
  | _ => simp [storedByte] at hv

/-- What a read that succeeds answers. -/
theorem memRead_ok {addr : Nat} {b : Byte} {s : State} (h : memRead addr s = .ok b) : addr < 256 ∧ s.cell addr = b := by
  by_cases ha : addr < 256
  · rw [memRead_inside s ha, Except.ok.injEq] at h
    exact ⟨ha, h⟩
  · rw [memRead_outside s (by omega)] at h
    cases h

/-- A byte of a fetched instruction is the byte of memory at its place. -/
theorem encode_of_fetch {u : State} {j : Instr} {k : Nat} (h : fetch u = .ok j) (hk : k < j.length) :
    (encode j)[k]? = some (u.cell (u.pc + k)) := by
  rw [← encode_length] at hk
  have hget := List.getElem?_eq_getElem hk
  have hread := (fetch_eq_ok_iff.mp h).2 k _ hget
  rw [hget, (memRead_ok hread).2]

/-- Settles O18: the stored byte is in the cell, and the fetch reads the cell. -/
theorem storeIsSeenByFetch : Obligations.StoreIsSeenByFetch := by
  intro i j s t u v k hv h hmem hf haddr hk
  rw [encode_of_fetch hf hk, haddr, hmem, exec_stored hv h]

end Sys2Proof.Machine

/-! Proofs about JNE and the pair JEQ, JNE (43_jumps.md), HLT (46_print_halt.md) and the unknown opcode
(40_interpreter_loop.md R75). -/

namespace Sys2Proof.Machine

/-! ### The conditional jumps -/

/-- Settles O30: as JEQ, with the branches exchanged. -/
theorem jumpIfNotEqualRule : Obligations.JumpIfNotEqualRule :=
  ⟨fun _ => encodedAs_encode rfl,
    fun a s hf => ⟨_, exec_jne_taken s a hf, withPc_frame (s.reg a).toNat s⟩,
    fun a s hf => ⟨_, exec_jne_not_taken s a hf, withPc_frame (s.pc + 2) s⟩,
    fun _ s hf h => exec_jne_invalid s h hf,
    operandFetchFaultsFrom_of_operandCount (by decide)⟩

/-- Settles O32: `fl` is Equal or it is not. -/
theorem conditionalJumpsAreComplementary : Obligations.ConditionalJumpsAreComplementary := by
  intro a s
  by_cases hf : s.fl = .equal
  · exact ⟨_, _, exec_jeq_taken s a hf, exec_jne_not_taken s _ hf, .inl ⟨rfl, rfl⟩⟩
  · exact ⟨_, _, exec_jeq_not_taken s _ hf, exec_jne_taken s a hf, .inr ⟨rfl, rfl⟩⟩

/-! ### HLT and the unknown opcode -/

/-- Settles O40: the encoding, the effect and the fetch at any address. -/
theorem haltRule : Obligations.HaltRule :=
  ⟨encodedAs_encode rfl,
    fun s => ⟨_, exec_hlt s, rfl, rfl, fun _ _ => rfl, fun _ _ => rfl, rfl, rfl, rfl⟩,
    fun s hrun hpc hop => step_fetched s hrun (fetch_of_no_operands hpc hop rfl)⟩

theorem encodedAs_unknown {op : Byte} (h : lookup op = .unknown) : encodedAs (.unknown op) [op] :=
  encodedAs_encode (by simp [Instr.wf, h])

/-- A byte outside the table is fetched whole at every address of the memory. -/
theorem fetch_unknown {s : State} (hpc : s.pc ≤ 255) (h : lookup (s.cell s.pc) = .unknown) :
    fetch s = .ok (.unknown (s.cell s.pc)) := by
  rw [fetch_of_no_operands hpc rfl (by rw [h]; rfl), h]
  rfl

/-- Settles O41: the encoding, the effect, the fetch at any address, and 0x00 as such a byte. -/
theorem unknownOpcodeRule : Obligations.UnknownOpcodeRule :=
  ⟨fun _ => encodedAs_unknown,
    fun op s => ⟨_, exec_unknown s op, rfl, rfl, rfl, fun _ _ => rfl, fun _ _ => rfl, rfl, rfl⟩,
    fun s hrun hpc h => step_fetched s hrun (fetch_unknown hpc h),
    by decide⟩

/-! ### Running into zero memory (70_reset_and_hazards.md section 4) -/

/-- One report per address of a run of n zero bytes from a on, in order. -/
def zeroReports (a n : Nat) : List UnknownOpcode := (List.range n).map fun k => ⟨a + k, 0x00#8⟩

theorem zeroReports_succ (a n : Nat) : zeroReports a (n + 1) = ⟨a, 0x00#8⟩ :: zeroReports (a + 1) n := by
  simp [zeroReports, List.range_succ_eq_map, Nat.add_right_comm, Nat.add_assoc, Function.comp_def]

/-- The state after n zero bytes are executed from `pc` on. -/
def State.pastZeros (n : Nat) (s : State) : State := { s with pc := s.pc + n, diag := s.diag ++ zeroReports s.pc n }

/-- The first of n + 1 zero bytes, then the others. -/
theorem State.pastZeros_succ (n : Nat) (s : State) :
    ((s.report s.pc 0x00#8).advance 1).pastZeros n = s.pastZeros (n + 1) := by
  simp [State.pastZeros, State.report, State.advance, State.withPc, zeroReports_succ, Nat.add_comm, Nat.add_left_comm]

theorem stepTimes_succ {s t : State} (n : Nat) (h : step s = .next t) : stepTimes (n + 1) s = stepTimes n t := by
  rw [stepTimes, h]

theorem stepTimes_zeros {n : Nat} {s : State} (hrun : s.run = .running) (hfit : s.pc + n ≤ 256)
    (hzero : ∀ a, s.pc ≤ a → a < s.pc + n → s.cell a = 0x00#8) : stepTimes n s = .next (s.pastZeros n) := by
  induction n generalizing s with
  | zero => simp [stepTimes, State.pastZeros, zeroReports]
  | succ n ih =>
    have hop : s.cell s.pc = 0x00#8 := hzero s.pc (by omega) (by omega)
    have hstep : step s = .next ((s.report s.pc 0x00#8).advance 1) :=
      (step_fetched s hrun (fetch_of_no_operands (by omega) hop (by decide))).trans (exec_unknown s 0x00#8)
    have hpc : ((s.report s.pc 0x00#8).advance 1).pc = s.pc + 1 := rfl
    rw [stepTimes_succ n hstep, ← State.pastZeros_succ]
    exact ih hrun (by omega) fun a hlo hhi => hzero a (by omega) (by omega)

/-- Settles O57: the zero bytes up to 255, then the opcode fetch at 256. -/
theorem runningOffTheEnd : Obligations.RunningOffTheEnd := by
  intro s hrun hpc hzero
  have hend : (s.pastZeros (256 - s.pc)).pc = 256 := Nat.add_sub_cancel' hpc
  have hfault := step_fetch_fault (s.pastZeros (256 - s.pc)) hrun (fetch_opcode_outside (by omega))
  rw [hend] at hfault
  exact ⟨_, stepTimes_zeros hrun (by omega) (fun a h1 h2 => hzero a h1 (by omega)), hend, hrun, rfl, fun _ _ => rfl,
    fun _ _ => rfl, rfl, rfl, hfault⟩

end Sys2Proof.Machine

/-! Proofs about the whole machine: what any instruction writes to memory and to the streams, what a fault is and
where it comes from (60_exceptions.md), and the frames and the invariant that follow. -/

namespace Sys2Proof.Machine

/-! ### Memory -/

/-- Only PUSH and CALL of a valid register store, and only at the push address (20_memory.md section 1). -/
theorem exec_cell {i : Instr} {s t : State} (h : exec i s = .next t) (x : Nat) : t.cell x = s.cell x ∨
    (x = s.pushAddr ∧ ∃ a : Fin 8, i = .push (regByte a) ∨ i = .call (regByte a)) := by
  by_cases hx : x = s.pushAddr
  · cases exec_case h with
    | push _ a => exact .inr ⟨hx, a, .inl rfl⟩
    | call _ a => exact .inr ⟨hx, a, .inr rfl⟩
    | _ => exact .inl rfl
  · refine .inl ?_
    cases exec_case h with
    | push | call => exact (s.pushed_cell _ x).trans (if_neg hx)
    | _ => rfl

/-- Settles O54: a fetch that faults stores nothing, and an instruction only as above. -/
theorem onlyPushAndCallStore : Obligations.OnlyPushAndCallStore := by
  intro s t x h hne
  obtain ⟨-, ⟨i, hi, hexec⟩ | ⟨k, -, rfl⟩⟩ := step_cases s h
  · obtain hkept | ⟨hx, a, rfl | rfl⟩ := exec_cell hexec x
    · exact absurd hkept hne
    · exact ⟨hx, a, .inl hi⟩
    · exact ⟨hx, a, .inr hi⟩
  · exact absurd rfl hne

/-- An instruction that is neither PUSH nor CALL changes no byte of memory. -/
theorem exec_sameMem {i : Instr} {s t : State} (hpush : i.mnemonic ≠ .push) (hcall : i.mnemonic ≠ .call)
    (h : exec i s = .next t) : sameMemBut none s t := by
  intro x _
  obtain hkept | ⟨-, a, rfl | rfl⟩ := exec_cell h x
  · exact hkept
  · exact absurd rfl hpush
  · exact absurd rfl hcall

/-! ### The streams -/

/-- The state with other contents of the two streams. -/
def State.withStreams (o : List Printed) (d : List UnknownOpcode) (s : State) : State := { s with out := o, diag := d }

/-- An instruction that raises InvalidRegister prints nothing and reports nothing. -/
theorem printedBy_of_invalidRegister {i : Instr} {s : State} {x : Byte} (hx : invalidRegisterOf i s = some x) :
    printedBy i s = [] := by
  cases i with
  | prn a =>
    have ha : 7 < a.toNat := by by_contra ha; simp [invalidRegisterOf, ha] at hx
    simp [printedBy, Nat.not_lt.mpr (Nat.succ_le_of_lt ha)]
  | _ => rfl

theorem reportedBy_of_invalidRegister {i : Instr} {s : State} {x : Byte} (hx : invalidRegisterOf i s = some x) :
    reportedBy i s = [] := by
  cases i with
  | unknown op => simp [invalidRegisterOf] at hx
  | _ => rfl

/-- With other streams an instruction does the same and appends to them what its rule says. -/
theorem exec_withStreams {i : Instr} {s t : State} (h : exec i s = .next t) (o : List Printed)
    (d : List UnknownOpcode) :
    exec i (s.withStreams o d) = .next (t.withStreams (o ++ printedBy i s) (d ++ reportedBy i s)) := by
  cases exec_case h with
  | prn _ a =>
    have hprinted : printedBy (.prn (regByte a)) s = [⟨s.reg a⟩] := by simp [printedBy]
    rw [hprinted, reportedBy, List.append_nil]
    exact exec_prn (s.withStreams o d) a
  | unknown _ op =>
    rw [printedBy, reportedBy, List.append_nil]
    exact exec_unknown (s.withStreams o d) op
  | invalidRegister _ _ x hx =>
    rw [printedBy_of_invalidRegister hx, reportedBy_of_invalidRegister hx, List.append_nil, List.append_nil]
    exact (ExecCase.invalidRegister (s.withStreams o d) i x hx).exec_eq
  | noReturnAddress _ a hpc =>
    rw [printedBy, reportedBy, List.append_nil, List.append_nil]
    exact exec_call_no_return_address (s.withStreams o d) a hpc
  | _ =>
    rw [printedBy, reportedBy, List.append_nil, List.append_nil]
    exact ExecCase.exec_eq (by constructor <;> assumption)

/-- Settles O55: the streams an instruction leaves, with the streams it found. -/
theorem streamsGrowByTheRule : Obligations.StreamsGrowByTheRule := by
  intro i s t h
  have ht : t = t.withStreams (s.out ++ printedBy i s) (s.diag ++ reportedBy i s) :=
    Host.Outcome.next.inj (h.symm.trans (exec_withStreams h s.out s.diag))
  exact ⟨congrArg State.out ht, congrArg State.diag ht⟩

/-- Settles O56: the fetch reads neither stream, and the instruction only appends. -/
theorem streamsAreNeverRead : Obligations.StreamsAreNeverRead := by
  intro s t o d h
  obtain ⟨hrun, ⟨i, hi, hexec⟩ | ⟨k, hk, rfl⟩⟩ := step_cases s h
  · obtain ⟨hout, hdiag⟩ := streamsGrowByTheRule i s t hexec
    exact ⟨_, _, hout, hdiag, (step_fetched (s.withStreams o d) hrun hi).trans (exec_withStreams hexec o d)⟩
  · refine ⟨[], [], (List.append_nil _).symm, (List.append_nil _).symm, ?_⟩
    rw [List.append_nil, List.append_nil]
    exact step_fetch_fault (s.withStreams o d) hrun hk

theorem exec_out {i : Instr} {s t : State} (hi : i.mnemonic ≠ .prn) (h : exec i s = .next t) : t.out = s.out := by
  rw [(streamsGrowByTheRule i s t h).1]
  cases i with
  | prn a => exact absurd rfl hi
  | _ => exact List.append_nil _

theorem exec_diag {i : Instr} {s t : State} (hi : i.mnemonic ≠ .unknown) (h : exec i s = .next t) :
    t.diag = s.diag := by
  rw [(streamsGrowByTheRule i s t h).2]
  cases i with
  | unknown op => exact absurd rfl hi
  | _ => exact List.append_nil _

/-! ### The flags -/

/-- Settles O27: CMP, the one instruction that writes `fl`, never writes None. -/
theorem noneFlagIsNeverWritten : Obligations.NoneFlagIsNeverWritten := by
  intro s t h hnone
  obtain ⟨-, ⟨i, -, hexec⟩ | ⟨k, -, rfl⟩⟩ := step_cases s h
  · cases exec_case hexec with
    | cmp _ a b => exact absurd hnone (compareFlags_ne_none _ _)
    | _ => exact hnone
  · exact hnone

/-- The conditional jumps ask of `fl` only whether it is Equal. -/
theorem invalidRegisterOf_withFl_of_ne {s : State} {f : Flags} (hs : s.fl ≠ .equal) (hf : f ≠ .equal) (i : Instr) :
    invalidRegisterOf i (s.withFl f) = invalidRegisterOf i s := by
  cases i with
  | jeq a | jne a => simp [invalidRegisterOf, hs, hf]
  | _ => rfl

/-- With another value that is not Equal in `fl` an instruction overwrites it with the same value, or carries it
along. -/
theorem exec_withFl_of_ne {i : Instr} {s t : State} {f : Flags} (hs : s.fl ≠ .equal) (hf : f ≠ .equal)
    (h : exec i s = .next t) :
    exec i (s.withFl f) = .next t ∨ (exec i (s.withFl f) = .next (t.withFl f) ∧ t.fl = s.fl) := by
  cases exec_case h with
  | cmp _ a b => exact .inl (exec_cmp (s.withFl f) a b)
  | jeqTaken _ a heq => exact absurd heq hs
  | jeqNotTaken _ a => exact .inr ⟨exec_jeq_not_taken (s.withFl f) a hf, rfl⟩
  | jneTaken _ a => exact .inr ⟨exec_jne_taken (s.withFl f) a hf, rfl⟩
  | jneNotTaken _ a heq => exact absurd heq hs
  | invalidRegister _ _ x hx =>
    exact .inr ⟨exec_of_invalidRegister ((invalidRegisterOf_withFl_of_ne hs hf i).trans hx), rfl⟩
  | _ => exact .inr ⟨ExecCase.exec_eq (by constructor <;> assumption), rfl⟩

/-- Settles O28: the fetch does not read `fl`, and an instruction does as above. -/
theorem nonEqualFlagsAreIndistinguishable : Obligations.NonEqualFlagsAreIndistinguishable := by
  intro s t f hs hf h
  obtain ⟨hrun, ⟨i, hi, hexec⟩ | ⟨k, hk, rfl⟩⟩ := step_cases s h
  · have hstep : step (s.withFl f) = exec i (s.withFl f) := step_fetched (s.withFl f) hrun hi
    obtain hu | ⟨hu, hfl⟩ := exec_withFl_of_ne hs hf hexec
    · exact ⟨t, hstep.trans hu, rfl, .inl rfl⟩
    · exact ⟨t.withFl f, hstep.trans hu, rfl, .inr ⟨rfl, hfl⟩⟩
  · exact ⟨(raiseFault k s).withFl f, step_fetch_fault (s.withFl f) hrun hk, rfl, .inr ⟨rfl, rfl⟩⟩

/-! ### Frames -/

/-- Only HLT and a fault change the run state. -/
theorem exec_sameRunOrFault {i : Instr} {s t : State} (hi : i ≠ .hlt) (h : exec i s = .next t) :
    sameRunOrFault s t := by
  obtain ⟨k, rfl⟩ | ⟨-, hrun⟩ := exec_faults_or_completes h
  · exact .inr ⟨k, rfl⟩
  · exact .inl (by rw [hrun, if_neg hi])

/-- What every instruction keeps that neither stores, nor appends to a stream, nor halts. -/
theorem exec_frame {i : Instr} {s t : State} (hi : i.mnemonic ∉ [.push, .call, .prn, .unknown, .hlt])
    (h : exec i s = .next t) : sameRunOrFault s t ∧ sameMemBut none s t ∧ sameStreams s t := by
  obtain ⟨hpush, hcall, hprn, hunknown, hhlt⟩ : i.mnemonic ≠ .push ∧ i.mnemonic ≠ .call ∧ i.mnemonic ≠ .prn ∧
    i.mnemonic ≠ .unknown ∧ i.mnemonic ≠ .hlt := by simpa using hi
  exact ⟨exec_sameRunOrFault (fun hi => hhlt (congrArg Instr.mnemonic hi)) h, exec_sameMem hpush hcall h,
    exec_out hprn h, exec_diag hunknown h⟩

theorem exec_sameRegs {i : Instr} {s t : State} (hi : registersWritten i = []) (h : exec i s = .next t) :
    sameRegsBut [] s t :=
  fun _ _ => exec_reg_of_not_written h (by simp [hi])

/-- Settles O42: the register they write is the one their first operand names. -/
theorem frameRegisterWriters : Obligations.FrameRegisterWriters := by
  intro i a s t hi h
  obtain ⟨b, rfl | rfl | rfl⟩ := hi <;>
    exact ⟨fun j hj => exec_reg_of_not_written h (by simpa [registersWritten] using hj),
      exec_fl (by simp [Instr.mnemonic]) h, exec_frame (by simp [Instr.mnemonic]) h⟩

/-- Settles O43: the table of registers gives them none to write. -/
theorem frameCompareAndJumps : Obligations.FrameCompareAndJumps := by
  intro i a s t hi h
  have hregs : registersWritten i = [] := by obtain rfl | rfl | rfl | ⟨b, rfl⟩ := hi <;> rfl
  have hframe : i.mnemonic ∉ [.push, .call, .prn, .unknown, .hlt] := by
    obtain rfl | rfl | rfl | ⟨b, rfl⟩ := hi <;> simp [Instr.mnemonic]
  refine ⟨exec_sameRegs hregs h, ?flags, exec_frame hframe h⟩
  case flags =>
    obtain rfl | rfl | rfl | hcmp := hi
    case inr.inr.inr => exact .inr hcmp
    all_goals exact .inl (exec_fl (by simp [Instr.mnemonic]) h)

/-- Settles O44: they write R7 alone, and store at the push address alone. -/
theorem frameStackStores : Obligations.FrameStackStores := by
  intro i a s t hi h
  have hmem : sameMemBut (some s.pushAddr) s t := fun x hx =>
    (exec_cell h x).resolve_right fun ⟨haddr, _⟩ => hx (congrArg some haddr.symm)
  obtain rfl | rfl := hi <;>
    exact ⟨fun j hj => exec_reg_of_not_written h (by simpa [registersWritten] using hj),
      exec_fl (by simp [Instr.mnemonic]) h, exec_sameRunOrFault (by simp) h, hmem,
      exec_out (by simp [Instr.mnemonic]) h, exec_diag (by simp [Instr.mnemonic]) h⟩

/-- Settles O45: POP writes R7 and the register its operand names, RET R7 alone. -/
theorem frameStackLoads : Obligations.FrameStackLoads := by
  intro i a s t hi h
  have hregs (j : Fin 8) (hsp : j ≠ spIndex) (ha : i = .pop a → regByte j ≠ a) : t.reg j = s.reg j := by
    refine exec_reg_of_not_written h ?_
    obtain rfl | rfl := hi
    · simpa [registersWritten, hsp] using ha
    · simpa [registersWritten] using hsp
  obtain rfl | rfl := hi <;>
    exact ⟨hregs, exec_fl (by simp [Instr.mnemonic]) h, exec_frame (by simp [Instr.mnemonic]) h⟩

/-- Settles O46: each of them keeps what the other two may change. -/
theorem frameOutputHaltUnknown : Obligations.FrameOutputHaltUnknown := by
  intro i a s t hi h
  have hregs : registersWritten i = [] := by obtain rfl | rfl | rfl := hi <;> rfl
  have hm : i.mnemonic ≠ .cmp ∧ i.mnemonic ≠ .push ∧ i.mnemonic ≠ .call := by
    obtain rfl | rfl | rfl := hi <;> simp [Instr.mnemonic]
  obtain ⟨hcmp, hpush, hcall⟩ := hm
  refine ⟨exec_sameRegs hregs h, exec_fl hcmp h, exec_sameMem hpush hcall h, ?_⟩
  obtain rfl | rfl | rfl := hi
  · exact ⟨.inr rfl, .inl (exec_diag (by simp [Instr.mnemonic]) h), .inl (exec_sameRunOrFault (by simp) h)⟩
  · exact ⟨.inl (exec_out (by simp [Instr.mnemonic]) h), .inl (exec_diag (by simp [Instr.mnemonic]) h), .inr rfl⟩
  · exact ⟨.inl (exec_out (by simp [Instr.mnemonic]) h), .inr rfl, .inl (exec_sameRunOrFault (by simp) h)⟩

end Sys2Proof.Machine

/-! Proofs about faults (60_exceptions.md): which instruction raises which, what else a fetch raises, and that
nothing but the run state changes; and the invariant of the state (10_state.md section 10). -/

namespace Sys2Proof.Machine

/-! ### What an instruction raises -/

/-- The faults an instruction itself can raise: the table of 60_exceptions.md R142, and the CALL row of R141. -/
inductive Raises : Instr → State → FaultKind → Prop where
  | invalidRegister {i : Instr} {s : State} {x : Byte} (hx : invalidRegisterOf i s = some x) :
      Raises i s (.invalidRegister x)
  | noReturnAddress {s : State} (a : Fin 8) (hpc : 254 ≤ s.pc) : Raises (.call (regByte a)) s (.outOfBounds (s.pc + 2))

/-- An instruction that leaves a machine faulted took one of these faults, and changed nothing else. -/
theorem exec_fault {i : Instr} {s t : State} {k : FaultKind} (hs : ∀ k, s.run ≠ .faulted k) (h : exec i s = .next t)
    (hk : t.run = .faulted k) : t = raiseFault k s ∧ Raises i s k := by
  cases exec_case h with
  | invalidRegister _ _ x hx =>
    obtain rfl : FaultKind.invalidRegister x = k := RunState.faulted.inj hk
    exact ⟨rfl, .invalidRegister hx⟩
  | noReturnAddress _ a hpc =>
    obtain rfl : FaultKind.outOfBounds (s.pc + 2) = k := RunState.faulted.inj hk
    exact ⟨rfl, .noReturnAddress a hpc⟩
  | hlt => cases hk
  | _ => exact absurd hk (hs k)

/-- Settles O49: of the faults above only the first records a register index. -/
theorem invalidRegisterCauses : Obligations.InvalidRegisterCauses := by
  refine fun i s t x hs h => ⟨fun hk => ?_, fun hx => ?_⟩
  · cases (exec_fault hs h hk).2 with
    | invalidRegister hx => exact hx
  · obtain rfl : raiseFault (.invalidRegister x) s = t :=
      Host.Outcome.next.inj ((exec_of_invalidRegister hx).symm.trans h)
    rfl

/-- Settles O50: the operand fetch comes before any register, the first register before the second, and the
register of CALL before its return address. -/
theorem faultPriority : Obligations.FaultPriority :=
  ⟨fun s hrun hpc hop => operandFetchFaultsFrom_of_operandCount (op := 0xA0#8) (lo := 254) (by decide) s hrun
      (by omega) (by omega) (hpc ▸ hop),
    fun _ b s ha _ => ⟨exec_alu_invalid_dest s b ha _ (.inl rfl), exec_alu_invalid_dest s b ha _ (.inr (.inl rfl)),
      exec_alu_invalid_dest s b ha _ (.inr (.inr rfl))⟩,
    fun _ s ha _ => exec_call_invalid s ha⟩

/-- Settles O51: the numbers as the model defines them; that of a fault kind is never 0. -/
theorem faultCodesAndRecordedValues : Obligations.FaultCodesAndRecordedValues := by
  refine ⟨fun _ => ⟨rfl, rfl⟩, fun _ => ⟨rfl, rfl⟩, rfl, fun _ => rfl, fun r => ?_⟩
  cases r with
  | running | halted => simp [RunState.faultCode]
  | faulted k => cases k <;> simp [RunState.faultCode, FaultKind.code]

/-! ### What a step raises -/

/-- A fetch raises only OutOfBounds: at the opcode byte, or at 256 for an operand byte. -/
theorem fetch_error {s : State} {k : FaultKind} (h : fetch s = .error k) :
    (k = .outOfBounds s.pc ∧ 256 ≤ s.pc) ∨ (k = .outOfBounds 256 ∧ s.pc ≤ 255 ∧ 256 ≤ s.pc + s.operandsHere) := by
  obtain ⟨i, hi, -⟩ | ⟨hf, hpc⟩ | ⟨hf, hpc, hend⟩ := fetch_cases s
  · rw [hi] at h; cases h
  · exact .inl ⟨Except.error.inj (h.symm.trans hf), hpc⟩
  · exact .inr ⟨Except.error.inj (h.symm.trans hf), hpc, hend⟩

/-- A fetched instruction lies wholly inside the memory. -/
theorem fetch_fits {s : State} {i : Instr} (h : fetch s = .ok i) : s.pc + i.length ≤ 256 := by
  obtain ⟨j, hj, -, hfit, -⟩ | ⟨hf, -⟩ | ⟨hf, -⟩ := fetch_cases s
  · obtain rfl : i = j := Except.ok.inj (h.symm.trans hj)
    exact hfit
  · rw [hf] at h; cases h
  · rw [hf] at h; cases h

/-- A step that leaves a machine faulted took the fault of the fetch or of the fetched instruction, and changed
nothing else. -/
theorem step_fault {s t : State} {k : FaultKind} (h : step s = .next t) (hk : t.run = .faulted k) :
    t = raiseFault k s ∧ (fetch s = .error k ∨ ∃ i, fetch s = .ok i ∧ Raises i s k) := by
  obtain ⟨hrun, ⟨i, hi, hexec⟩ | ⟨k', hk', rfl⟩⟩ := step_cases s h
  · obtain ⟨ht, hraises⟩ := exec_fault (by simp [hrun]) hexec hk
    exact ⟨ht, .inr ⟨i, hi, hraises⟩⟩
  · obtain rfl : k' = k := RunState.faulted.inj hk
    exact ⟨rfl, .inl hk'⟩

/-- Settles O47, wherever the fault arose. -/
theorem faultsArePrecise : Obligations.FaultsArePrecise :=
  fun _ _ _ h hk => (step_fault h hk).1

/-- Settles O22: the selector's own error, and no fault of a fetch or of an instruction is this one. -/
theorem unsupportedOperationUnreachable : Obligations.UnsupportedOperationUnreachable := by
  refine ⟨fun n d r s => aluApply_other s d r n, fun s t h hk => ?_⟩
  obtain ⟨-, hfetch | ⟨i, -, hraises⟩⟩ := step_fault h hk
  · obtain ⟨hoob, -⟩ | ⟨hoob, -⟩ := fetch_error hfetch <;> cases hoob
  · cases hraises

/-- A running machine inside the memory that raises OutOfBounds is in a row of the table of 60_exceptions.md R141,
and records 256. -/
theorem step_outOfBounds {s t : State} {addr : Nat} (hpc : s.pc ≤ 256) (h : step s = .next t)
    (hk : t.run = .faulted (.outOfBounds addr)) : outOfBoundsHere s ∧ addr = 256 := by
  have hle : s.operandsHere ≤ 2 := Mnemonic.operandCount_le _
  obtain ⟨-, hfetch | ⟨i, hi, hraises⟩⟩ := step_fault h hk
  · obtain ⟨haddr, hout⟩ | ⟨haddr, hin, hend⟩ := fetch_error hfetch <;> rw [FaultKind.outOfBounds.injEq] at haddr
    · exact ⟨.inl (by omega), by omega⟩
    · refine ⟨?_, haddr⟩
      rcases Nat.lt_or_eq_of_le hin with hlt | heq
      · exact .inr (.inr (.inl (by omega)))
      · exact .inr (.inl (by omega))
  · cases hraises with
    | noReturnAddress a hlow =>
      have hfit : s.pc + 2 ≤ 256 := fetch_fits hi
      exact ⟨.inr (.inr (.inr ⟨by omega, a, hi⟩)), by omega⟩

/-- Each row of the table raises it. -/
theorem step_of_outOfBoundsHere {s : State} (hrun : s.run = .running) (h : outOfBoundsHere s) :
    step s = .next (raiseFault (.outOfBounds 256) s) := by
  obtain hpc | ⟨hpc, hn⟩ | ⟨hpc, hn⟩ | ⟨hpc, a, ha⟩ := h
  · have hfetch := fetch_opcode_outside (s := s) (by omega)
    rw [hpc] at hfetch
    exact step_fetch_fault s hrun hfetch
  · rw [State.operandsHere] at hn
    exact step_fetch_fault s hrun (fetch_operand_outside (by omega) (by omega))
  · rw [State.operandsHere] at hn
    exact step_fetch_fault s hrun (fetch_operand_outside (by omega) (by omega))
  · rw [step_fetched s hrun ha, exec_call_no_return_address s a (by omega), hpc]

/-- Settles O48: the rows of the table, both ways. -/
theorem outOfBoundsCauses : Obligations.OutOfBoundsCauses :=
  fun _ hrun hpc => ⟨⟨step_of_outOfBoundsHere hrun, fun h => (step_outOfBounds hpc h rfl).1⟩,
    fun _ _ h hk => (step_outOfBounds hpc h hk).2⟩

/-! ### The invariant -/

/-- The push address is inside the memory, so a store keeps the canonical form. -/
theorem exec_mem_wf {i : Instr} {s t : State} (hwf : s.mem.wf = true) (h : exec i s = .next t) : t.mem.wf = true := by
  cases exec_case h with
  | push | call => exact Memory.write_wf _ hwf (BitVec.isLt _)
  | _ => exact hwf

/-- An instruction wholly inside the memory leaves `pc` at most just past it: a jump goes to a byte, any other
instruction to its own end. -/
theorem exec_pc_le {i : Instr} {s t : State} (hfit : s.pc + i.length ≤ 256) (h : exec i s = .next t) :
    t.pc ≤ 256 := by
  cases exec_case h with
  | jeqTaken | jneTaken | jmp | call | ret => exact Nat.le_of_lt (BitVec.isLt _)
  | invalidRegister | noReturnAddress => exact (Nat.le_add_right _ _).trans hfit
  | _ => exact hfit

/-- Settles O52: a fault of the fetch changes neither part, and a fetched instruction lies inside the memory. -/
theorem stepKeepsInvariant : Obligations.StepKeepsInvariant := by
  intro s t ⟨hwf, hpc⟩ h
  obtain ⟨-, ⟨i, hi, hexec⟩ | ⟨k, -, rfl⟩⟩ := step_cases s h
  · exact ⟨exec_mem_wf hwf hexec, exec_pc_le (fetch_fits hi) hexec⟩
  · exact ⟨hwf, hpc⟩

end Sys2Proof.Machine
